-- ==== Sys2Proof/Word.lean ====
section
/-! DEFINITION. The word and byte types (00_scope.md rules R9, R12: XLEN = 32, unsigned vectors, arithmetic modulo 2^32). -/

namespace Sys2Proof

/-- A register value, memory word or instruction word (R12). -/
abbrev Word := BitVec 32

/-- One byte lane of a word (R59). -/
abbrev Byte := BitVec 8

end Sys2Proof
end

