-- ==== Sys2Proof/Config.lean ====
section
/-! DEFINITION. The implementation parameters of 00_scope.md rule R9 that are constants of this hardware.
The one parameter that varies between machines, `ROM_IMAGE` (R10), is a field of State (log 1). -/

namespace Sys2Proof.Config

/-- `ADDR_MASK`: the word-aligned part of a 26-bit address (R9, R51). -/
def addrMask : Word := 0x03FFFFFC#32

/-- The bits of R15 outside the program counter: flags, bits 27:26 and mode (R28). -/
def statusMask : Word := 0xFC000003#32

/-- The mask of the branch target formula (R120). -/
def branchMask : Word := 0x03FFFFFF#32

/-- `PIPE_OFFSET` (R9, R101). -/
def pipeOffset : Word := 8#32

/-- `SEQ_INC`: the PC advance when the PC was not written (R9, R109). -/
def seqInc : Word := 4#32

/-- `TAKEN_INC`: the PC advance when the PC was written (R9, R109). -/
def takenInc : Word := 8#32

/-- `RAM_SIZE` in bytes, 4 MiB (R9, R53). -/
def ramSize : Nat := 0x400000

/-- `RESET_VECTOR` (R9). DESIGN CHOICE of the spec (D8), unsafe, log 4. -/
def resetVector : Word := 0x00000000#32

/-- `ROM_LOW_RESET` (R9, R35). -/
def romLowReset : Bool := true

/-- What a RAM byte that nothing has written reads as (R38). DESIGN CHOICE of the spec (D10), unsafe, log 3. -/
def ramFill : Byte := 0#8

end Sys2Proof.Config
end

