-- ==== Sys2Proof/Syntax.lean ====
section
/-! DEFINITION. The instructions: one constructor per row of spec/opcode_table.json (30_encoding.md rule R97). -/

namespace Sys2Proof

/-- The condition field's 16 codes, in the order of their numbers (R94). -/
inductive Cond where
  | eq | ne | cs | cc | mi | pl | vs | vc | hi | ls | ge | lt | gt | le | al | nv
  deriving DecidableEq, Repr

/-- A logical register number R0 to R15 (10_state.md R21). -/
abbrev Reg := Fin 16

/-- Register 14, which BL writes (R21). -/
abbrev Reg.lr : Reg := 14

/-- Register 15, which packs flags, mode and program counter (R21, R30). -/
abbrev Reg.pc : Reg := 15

/-- The shift types of the register-offset form, in the order of their codes (R88). -/
inductive ShiftType where
  | lsl | lsr | asr | ror
  deriving DecidableEq, Repr

/-- The flags P (pre-indexing), U (offset is positive) and W (write-back) of a Load/Store word (R86). -/
structure Indexing where
  /-- bit 24: the offset is applied before the access. -/
  pre : Bool
  /-- bit 23: the offset is added. -/
  up : Bool
  /-- bit 21, used only when `pre` holds (R89). -/
  wbit : Bool
  deriving DecidableEq, Repr

/-- The register-offset field (R88). PRESUMED layout (D18), unsafe, log 14. -/
structure ShiftedReg where
  /-- the shift amount, 0 to 31. -/
  amount : Nat
  /-- the shift type. -/
  stype : ShiftType
  /-- bit 4, which nothing examines; kept so that a word is recovered from its instruction. -/
  bit4 : Bool
  /-- the offset register. -/
  rm : Reg
  deriving DecidableEq, Repr

/-- The instruction set (R97). The numeric operands are the numbers the fields hold; WellFormed gives their ranges. -/
inductive Instr where
  /-- B (R120) -/
  | b (c : Cond) (imm24 : Nat)
  /-- BL (R121) -/
  | bl (c : Cond) (imm24 : Nat)
  /-- STR, immediate offset (R134) -/
  | strImm (c : Cond) (ix : Indexing) (rn rd : Reg) (imm12 : Nat)
  /-- LDR, immediate offset (R132) -/
  | ldrImm (c : Cond) (ix : Indexing) (rn rd : Reg) (imm12 : Nat)
  /-- STRB, immediate offset (R135) -/
  | strbImm (c : Cond) (ix : Indexing) (rn rd : Reg) (imm12 : Nat)
  /-- LDRB, immediate offset (R133) -/
  | ldrbImm (c : Cond) (ix : Indexing) (rn rd : Reg) (imm12 : Nat)
  /-- STR, register offset (R134) -/
  | strReg (c : Cond) (ix : Indexing) (rn rd : Reg) (sh : ShiftedReg)
  /-- LDR, register offset (R132) -/
  | ldrReg (c : Cond) (ix : Indexing) (rn rd : Reg) (sh : ShiftedReg)
  /-- STRB, register offset (R135) -/
  | strbReg (c : Cond) (ix : Indexing) (rn rd : Reg) (sh : ShiftedReg)
  /-- LDRB, register offset (R133) -/
  | ldrbReg (c : Cond) (ix : Indexing) (rn rd : Reg) (sh : ShiftedReg)
  /-- DP, the Data-Processing stub (R150) -/
  | dp (c : Cond) (ignored : BitVec 26)
  /-- UND, class bits 100 (R152) -/
  | und100 (c : Cond) (ignored : BitVec 25)
  /-- UND, class bits 11x (R152) -/
  | und11x (c : Cond) (ignored : BitVec 26)
  deriving DecidableEq, Repr

/-- The condition field of an instruction: every instruction has one (R81). -/
def Instr.cond : Instr → Cond
  | .b c _ => c
  | .bl c _ => c
  | .strImm c _ _ _ _ => c
  | .ldrImm c _ _ _ _ => c
  | .strbImm c _ _ _ _ => c
  | .ldrbImm c _ _ _ _ => c
  | .strReg c _ _ _ _ => c
  | .ldrReg c _ _ _ _ => c
  | .strbReg c _ _ _ _ => c
  | .ldrbReg c _ _ _ _ => c
  | .dp c _ => c
  | .und100 c _ => c
  | .und11x c _ => c

/-- The four classes of the decoder (R82). -/
inductive InstrClass where
  | branch | dataProcessing | loadStore | undefined
  deriving DecidableEq, Repr

/-- The class each row belongs to (R97). -/
def Instr.class : Instr → InstrClass
  | .b _ _ => .branch
  | .bl _ _ => .branch
  | .strImm _ _ _ _ _ => .loadStore
  | .ldrImm _ _ _ _ _ => .loadStore
  | .strbImm _ _ _ _ _ => .loadStore
  | .ldrbImm _ _ _ _ _ => .loadStore
  | .strReg _ _ _ _ _ => .loadStore
  | .ldrReg _ _ _ _ _ => .loadStore
  | .strbReg _ _ _ _ _ => .loadStore
  | .ldrbReg _ _ _ _ _ => .loadStore
  | .dp _ _ => .dataProcessing
  | .und100 _ _ => .undefined
  | .und11x _ _ => .undefined

/-- The row of the opcode table an instruction belongs to. -/
inductive Row where
  | b | bl | strImm | ldrImm | strbImm | ldrbImm | strReg | ldrReg | strbReg | ldrbReg | dp | und100 | und11x
  deriving DecidableEq, Repr

/-- The row of each constructor. -/
def Instr.row : Instr → Row
  | .b _ _ => .b
  | .bl _ _ => .bl
  | .strImm _ _ _ _ _ => .strImm
  | .ldrImm _ _ _ _ _ => .ldrImm
  | .strbImm _ _ _ _ _ => .strbImm
  | .ldrbImm _ _ _ _ _ => .ldrbImm
  | .strReg _ _ _ _ _ => .strReg
  | .ldrReg _ _ _ _ _ => .ldrReg
  | .strbReg _ _ _ _ _ => .strbReg
  | .ldrbReg _ _ _ _ _ => .ldrbReg
  | .dp _ _ => .dp
  | .und100 _ _ => .und100
  | .und11x _ _ => .und11x

end Sys2Proof
end

