-- ==== Sys2Proof/WellFormed.lean ====
section
/-! DEFINITION. Which instructions have a word: the ranges of the numeric fields (30_encoding.md rules R84, R87, R88).
Registers, conditions, flags and ignored bits are in range by their types. Log 24. -/

namespace Sys2Proof

/-- A branch's `imm24` field holds 24 bits (R84). -/
def imm24Fits (n : Nat) : Bool := decide (n < 2 ^ 24)

/-- The immediate offset holds 12 bits, 0 to 4095 (R87). -/
def imm12Fits (n : Nat) : Bool := decide (n < 2 ^ 12)

/-- The shift amount holds 5 bits, 0 to 31 (R88). -/
def ShiftedReg.fits (sh : ShiftedReg) : Bool := decide (sh.amount < 2 ^ 5)

/-- Every numeric field of the instruction fits the bits its format gives it. -/
def Instr.wellFormed : Instr → Bool
  | .b _ imm24 => imm24Fits imm24
  | .bl _ imm24 => imm24Fits imm24
  | .strImm _ _ _ _ imm12 => imm12Fits imm12
  | .ldrImm _ _ _ _ imm12 => imm12Fits imm12
  | .strbImm _ _ _ _ imm12 => imm12Fits imm12
  | .ldrbImm _ _ _ _ imm12 => imm12Fits imm12
  | .strReg _ _ _ _ sh => sh.fits
  | .ldrReg _ _ _ _ sh => sh.fits
  | .strbReg _ _ _ _ sh => sh.fits
  | .ldrbReg _ _ _ _ sh => sh.fits
  | .dp _ _ => true
  | .und100 _ _ => true
  | .und11x _ _ => true

end Sys2Proof
end

