-- ==== Sys2Proof/Decode.lean ====
section
/-! DEFINITION. Byte order, the decoder (30_encoding.md rules R80 to R97), the opcode rows and the encoder. -/

namespace Sys2Proof

/-! ### Byte order (20_memory.md rule R59) -/

/-- Byte lane `lane` of a word, lane 0 least significant (R57, R59). -/
def byteLane (w : Word) (lane : Nat) : Byte := w.extractLsb' (8 * lane) 8

/-- The word whose lanes 0 to 3 are the four bytes in address order (R54, R59). -/
def wordOfBytes (b0 b1 b2 b3 : Byte) : Word := b3 ++ b2 ++ b1 ++ b0

/-- The four bytes of a word in address order (R59). -/
def bytesOfWord (w : Word) : List Byte := [byteLane w 0, byteLane w 1, byteLane w 2, byteLane w 3]

/-! ### Field codes -/

/-- The condition a 4-bit code names (R94). -/
def Cond.ofBits (b : BitVec 4) : Cond :=
  match b.toNat with
  | 0 => .eq
  | 1 => .ne
  | 2 => .cs
  | 3 => .cc
  | 4 => .mi
  | 5 => .pl
  | 6 => .vs
  | 7 => .vc
  | 8 => .hi
  | 9 => .ls
  | 10 => .ge
  | 11 => .lt
  | 12 => .gt
  | 13 => .le
  | 14 => .al
  | _ => .nv

/-- The 4-bit code of a condition (R94). -/
def Cond.toBits : Cond → BitVec 4
  | .eq => 0x0#4
  | .ne => 0x1#4
  | .cs => 0x2#4
  | .cc => 0x3#4
  | .mi => 0x4#4
  | .pl => 0x5#4
  | .vs => 0x6#4
  | .vc => 0x7#4
  | .hi => 0x8#4
  | .ls => 0x9#4
  | .ge => 0xA#4
  | .lt => 0xB#4
  | .gt => 0xC#4
  | .le => 0xD#4
  | .al => 0xE#4
  | .nv => 0xF#4

/-- The shift type a 2-bit code names (R88). PRESUMED codes (D18), unsafe, log 14. -/
def ShiftType.ofBits (b : BitVec 2) : ShiftType :=
  match b.toNat with
  | 0 => .lsl
  | 1 => .lsr
  | 2 => .asr
  | _ => .ror

/-- The 2-bit code of a shift type (R88). PRESUMED codes (D18), unsafe, log 14. -/
def ShiftType.toBits : ShiftType → BitVec 2
  | .lsl => 0#2
  | .lsr => 1#2
  | .asr => 2#2
  | .ror => 3#2

/-- The register a 4-bit field names. -/
def regOfBits (b : BitVec 4) : Reg := b.toFin

/-- The 4-bit field of a register. -/
def regBits (r : Reg) : BitVec 4 := BitVec.ofFin r

/-! ### The decoder -/

/-- The condition field, bits 31:28 (R81, R104). -/
def condField (w : Word) : Cond := Cond.ofBits (w.extractLsb' 28 4)

/-- The class of a word: the three mask tests in the order the spec checks them (R82). -/
def classify (w : Word) : InstrClass :=
  if w &&& 0x0E000000#32 = 0x0A000000#32 then .branch
  else if w &&& 0x0C000000#32 = 0x00000000#32 then .dataProcessing
  else if w &&& 0x0C000000#32 = 0x04000000#32 then .loadStore
  else .undefined

/-- Branch words: bit 24 is the link flag, bits 23:0 the offset in words (R84). -/
def decodeBranch (w : Word) : Instr :=
  let imm24 := (w.extractLsb' 0 24).toNat
  if w.getLsbD 24 then .bl (condField w) imm24 else .b (condField w) imm24

/-- The flags P, U and W: bits 24, 23 and 21 (R86). -/
def indexingField (w : Word) : Indexing := ⟨w.getLsbD 24, w.getLsbD 23, w.getLsbD 21⟩

/-- The base register, bits 19:16 (R86). -/
def rnField (w : Word) : Reg := regOfBits (w.extractLsb' 16 4)

/-- The source or destination register, bits 15:12 (R86). -/
def rdField (w : Word) : Reg := regOfBits (w.extractLsb' 12 4)

/-- The immediate offset, bits 11:0 (R87). -/
def imm12Field (w : Word) : Nat := (w.extractLsb' 0 12).toNat

/-- The register offset: amount 11:7, type 6:5, bit 4 ignored, Rm 3:0 (R88). PRESUMED positions (D18), unsafe, log 14. -/
def shiftedRegField (w : Word) : ShiftedReg :=
  ⟨(w.extractLsb' 7 5).toNat, ShiftType.ofBits (w.extractLsb' 5 2), w.getLsbD 4, regOfBits (w.extractLsb' 0 4)⟩

/-- Load/Store words with an immediate offset: `B` (bit 22) and `L` (bit 20) select the mnemonic (R86). -/
def decodeTransferImm (w : Word) : Instr :=
  match w.getLsbD 22, w.getLsbD 20 with
  | false, false => .strImm (condField w) (indexingField w) (rnField w) (rdField w) (imm12Field w)
  | false, true => .ldrImm (condField w) (indexingField w) (rnField w) (rdField w) (imm12Field w)
  | true, false => .strbImm (condField w) (indexingField w) (rnField w) (rdField w) (imm12Field w)
  | true, true => .ldrbImm (condField w) (indexingField w) (rnField w) (rdField w) (imm12Field w)

/-- Load/Store words with a register offset: `B` (bit 22) and `L` (bit 20) select the mnemonic (R86). -/
def decodeTransferReg (w : Word) : Instr :=
  match w.getLsbD 22, w.getLsbD 20 with
  | false, false => .strReg (condField w) (indexingField w) (rnField w) (rdField w) (shiftedRegField w)
  | false, true => .ldrReg (condField w) (indexingField w) (rnField w) (rdField w) (shiftedRegField w)
  | true, false => .strbReg (condField w) (indexingField w) (rnField w) (rdField w) (shiftedRegField w)
  | true, true => .ldrbReg (condField w) (indexingField w) (rnField w) (rdField w) (shiftedRegField w)

/-- Load/Store words: `I` (bit 25) selects the offset form (R86). -/
def decodeLoadStore (w : Word) : Instr :=
  if w.getLsbD 25 then decodeTransferReg w else decodeTransferImm w

/-- Data-Processing words: bits 25:0 are ignored (R90). -/
def decodeDataProcessing (w : Word) : Instr := .dp (condField w) (w.extractLsb' 0 26)

/-- Undefined words: class bits 11x or 100 (R91, R97). -/
def decodeUndefined (w : Word) : Instr :=
  if w.getLsbD 26 then .und11x (condField w) (w.extractLsb' 0 26) else .und100 (condField w) (w.extractLsb' 0 25)

/-- `decode(word)`: pure, stateless, total (R82). -/
def decodeWord (w : Word) : Instr :=
  match classify w with
  | .branch => decodeBranch w
  | .dataProcessing => decodeDataProcessing w
  | .loadStore => decodeLoadStore w
  | .undefined => decodeUndefined w

/-- Why a byte string holds no instruction. -/
inductive DecodeError where
  /-- fewer than the four bytes every instruction has (R80). No fetch produces this: a fetch reads a whole word. -/
  | truncated
  deriving DecidableEq, Repr

/-- An instruction from bytes in address order, and the bytes after it (R80: one length, four bytes, little-endian). -/
def decode : List Byte → Except DecodeError (Instr × List Byte)
  | b0 :: b1 :: b2 :: b3 :: rest => .ok (decodeWord (wordOfBytes b0 b1 b2 b3), rest)
  | _ => .error .truncated

/-- What the decoder reads from an instruction whose table bits are `w`: its bytes are laid out in address order and decoded. -/
def decodeTableWord (nbits w : Nat) : Option Instr :=
  match decode (bytesOfWord (BitVec.ofNat 32 (w % 2 ^ nbits))) with
  | .ok (i, _) => some i
  | .error _ => none

/-! ### The opcode rows -/

/-- The bits that identify a row (R97, column mask). -/
def Row.mask : Row → Word
  | .b => 0x0F000000#32
  | .bl => 0x0F000000#32
  | .strImm => 0x0E500000#32
  | .ldrImm => 0x0E500000#32
  | .strbImm => 0x0E500000#32
  | .ldrbImm => 0x0E500000#32
  | .strReg => 0x0E500000#32
  | .ldrReg => 0x0E500000#32
  | .strbReg => 0x0E500000#32
  | .ldrbReg => 0x0E500000#32
  | .dp => 0x0C000000#32
  | .und100 => 0x0E000000#32
  | .und11x => 0x0C000000#32

/-- Their value in the row's words (R97, column match). -/
def Row.pattern : Row → Word
  | .b => 0x0A000000#32
  | .bl => 0x0B000000#32
  | .strImm => 0x04000000#32
  | .ldrImm => 0x04100000#32
  | .strbImm => 0x04400000#32
  | .ldrbImm => 0x04500000#32
  | .strReg => 0x06000000#32
  | .ldrReg => 0x06100000#32
  | .strbReg => 0x06400000#32
  | .ldrbReg => 0x06500000#32
  | .dp => 0x00000000#32
  | .und100 => 0x08000000#32
  | .und11x => 0x0C000000#32

/-- The rows in the table's order (R97). -/
def Row.all : List Row :=
  [.b, .bl, .strImm, .ldrImm, .strbImm, .ldrbImm, .strReg, .ldrReg, .strbReg, .ldrbReg, .dp, .und100, .und11x]

/-- A word belongs to a row when its identifying bits have the row's value (R97). -/
def Row.accepts (r : Row) (w : Word) : Bool := w &&& r.mask == r.pattern

/-! ### The encoder -/

/-- A Branch word: `cond 101 L imm24` (R84). -/
def encodeBranch (c : Cond) (link : Bool) (imm24 : Nat) : Word :=
  c.toBits ++ 0b101#3 ++ BitVec.ofBool link ++ BitVec.ofNat 24 imm24

/-- A Load/Store word: `cond 01 I P U B W L Rn Rd offset12` (R86). -/
def encodeTransfer (c : Cond) (regForm byte load : Bool) (ix : Indexing) (rn rd : Reg) (offset12 : BitVec 12) : Word :=
  c.toBits ++ 0b01#2 ++ BitVec.ofBool regForm ++ BitVec.ofBool ix.pre ++ BitVec.ofBool ix.up ++ BitVec.ofBool byte
    ++ BitVec.ofBool ix.wbit ++ BitVec.ofBool load ++ regBits rn ++ regBits rd ++ offset12

/-- The register-offset field: `shamt stype x Rm` (R88). PRESUMED positions (D18), unsafe, log 14. -/
def ShiftedReg.toBits (sh : ShiftedReg) : BitVec 12 :=
  BitVec.ofNat 5 sh.amount ++ sh.stype.toBits ++ BitVec.ofBool sh.bit4 ++ regBits sh.rm

/-- The word of an instruction (R84 to R91, R97). -/
def encode : Instr → Word
  | .b c imm24 => encodeBranch c false imm24
  | .bl c imm24 => encodeBranch c true imm24
  | .strImm c ix rn rd imm12 => encodeTransfer c false false false ix rn rd (BitVec.ofNat 12 imm12)
  | .ldrImm c ix rn rd imm12 => encodeTransfer c false false true ix rn rd (BitVec.ofNat 12 imm12)
  | .strbImm c ix rn rd imm12 => encodeTransfer c false true false ix rn rd (BitVec.ofNat 12 imm12)
  | .ldrbImm c ix rn rd imm12 => encodeTransfer c false true true ix rn rd (BitVec.ofNat 12 imm12)
  | .strReg c ix rn rd sh => encodeTransfer c true false false ix rn rd sh.toBits
  | .ldrReg c ix rn rd sh => encodeTransfer c true false true ix rn rd sh.toBits
  | .strbReg c ix rn rd sh => encodeTransfer c true true false ix rn rd sh.toBits
  | .ldrbReg c ix rn rd sh => encodeTransfer c true true true ix rn rd sh.toBits
  | .dp c ignored => c.toBits ++ 0b00#2 ++ ignored
  | .und100 c ignored => c.toBits ++ 0b100#3 ++ ignored
  | .und11x c ignored => c.toBits ++ 0b11#2 ++ ignored

/-- The bytes of an instruction in address order (R59, R80). -/
def encodeBytes (i : Instr) : List Byte := bytesOfWord (encode i)

end Sys2Proof
end

