-- ==== Sys2Proof/Machine/State.lean ====
section
/-! DEFINITION. The state of the block (10_state.md rule R20), its reset (R38, 70_reset_and_hazards.md R180), and the
reasons a step can stop. -/

namespace Sys2Proof.Machine

/-- RAM as pairs of a RAM byte offset and its byte, offsets strictly rising, no byte equal to `Config.ramFill` (log 25). -/
abbrev Memory := List Host.Cell

/-- The four processor modes (R24). -/
inductive Mode where
  | user | fiq | irq | svc
  deriving DecidableEq, Repr

/-- The architectural state (R20) and the machine's one parameter (00_scope.md R10). -/
structure State where
  /-- `slot[0..26]`, the physical register slots; slot 15 is the packed R15 (R21, R22, R30). -/
  slots : Vector Word 27
  /-- `RAM`, 4 MiB (R20, 20_memory.md R53). -/
  ram : Memory
  /-- `rom_low`: whether the logical window shows ROM (R35). -/
  romLow : Bool
  /-- `ROM_IMAGE`, fixed for the life of the machine; no step changes it (00_scope.md R9, log 1). -/
  romImage : List Byte
  deriving DecidableEq, Repr

/-- Why a step ends in a fault (60_exceptions.md R160: there is one exception). -/
inductive Fault where
  /-- `UndefinedInstruction` with the reduced fetch address and the fetched word (R160, R161), raised by a UND word whose
  condition passes. Safe: the spec ends the step here, and the state it leaves is the one before the step (R162, log 17). -/
  | undefinedInstruction (fetchAddr word : Word)
  deriving DecidableEq, Repr

/-- Why a step has no meaning. -/
inductive Refusal where
  /-- The instruction has no meaning in this model yet; raised by `exec` alone, and by no arm of this model. Safe. -/
  | notModelled (mnemonic : String)
  deriving DecidableEq, Repr

/-- The outcome of a step of this machine. -/
abbrev Outcome := Host.Outcome State Fault Refusal

/-- Construction of the core with the host's ROM image, which is reset (R180, R38).
The slots other than 15 are 0 (DESIGN CHOICE of the spec, D9, unsafe, log 2) and RAM lists nothing (D10, unsafe, log 3);
R15 holds the reset vector (D8, log 4) plus the pipeline offset, with flags clear and mode User. -/
def State.construct (image : List Byte) : State where
  slots := (Vector.replicate 27 0#32).set 15 (Config.resetVector + Config.pipeOffset)
  ram := []
  romLow := Config.romLowReset
  romImage := image

/-- The machine right after reset with the empty ROM image (R38; R182 names this image; log 1). -/
def State.reset : State := State.construct []

end Sys2Proof.Machine
end

