-- ==== Sys2Proof/Machine/Ops.lean ====
section
/-! DEFINITION. The operations of the register file and the memory address decoder (00_scope.md rule R7), the instruction in
flight with its transient `pc_written`, the PC advance, and the one exception. -/

namespace Sys2Proof.Machine

/-! ### Register file (10_state.md) -/

/-- The mode in bits 1:0 of a packed R15 (R24: User=0, FIQ=1, IRQ=2, SVC=3). -/
def modeOf (packed : Word) : Mode :=
  match (packed.extractLsb' 0 2).toNat with
  | 0 => .user
  | 1 => .fiq
  | 2 => .irq
  | _ => .svc

/-- `phys(m, r)` as a number (R22): FIQ banks 8..14 at +8, IRQ 13..14 at +10, SVC 13..14 at +12. R15 keeps slot 15
(DEDUCED by the spec from the count of slots, D6, log 6). -/
def physNumber (m : Mode) (r : Nat) : Nat :=
  if r = 15 then 15
  else match m with
  | .user => r
  | .fiq => if 8 ≤ r ∧ r ≤ 14 then r + 8 else r
  | .irq => if 13 ≤ r ∧ r ≤ 14 then r + 10 else r
  | .svc => if 13 ≤ r ∧ r ≤ 14 then r + 12 else r

/-- `phys(m, r)` as a slot index (R22). -/
def phys (m : Mode) (r : Reg) : Fin 27 := Fin.ofNat 27 (physNumber m r.val)

/-- `slot[i]` (R20). -/
def State.slot (s : State) (i : Fin 27) : Word := s.slots[i]

/-- `slot[i] <- v`. -/
def State.setSlot (s : State) (i : Fin 27) (v : Word) : State := { s with slots := s.slots.set i v }

/-- `mode()`: the mode field of slot 15, sampled at each register access (R24; DESIGN CHOICE of the spec, D33, log 18). -/
def State.mode (s : State) : Mode := modeOf (s.slot 15)

/-- `get(reg)`: the banked read, all 32 bits (R25). -/
def State.get (s : State) (r : Reg) : Word := s.slot (phys s.mode r)

/-- `set(reg, value)`: the banked write, all 32 bits, with the mode read before the write (R26). -/
def State.set (s : State) (r : Reg) (v : Word) : State := s.setSlot (phys s.mode r) v

/-- `get_address(reg)`: for R15 the address bits only, else `get` (R27). -/
def State.getAddress (s : State) (r : Reg) : Word :=
  if r = Reg.pc then s.slot 15 &&& Config.addrMask else s.get r

/-- `set_address(reg, value)`: for R15 the address bits only, else `set` (R28). -/
def State.setAddress (s : State) (r : Reg) (v : Word) : State :=
  if r = Reg.pc then s.setSlot 15 ((s.slot 15 &&& Config.statusMask) ||| (v &&& Config.addrMask)) else s.set r v

/-! ### RAM bytes (log 25) -/

/-- The byte at a RAM offset; an unlisted one reads as `Config.ramFill` (20_memory.md R61). -/
def Memory.read : Memory → Nat → Byte
  | [], _ => Config.ramFill
  | (k, b) :: rest, o => if k = o then b else Memory.read rest o

/-- The memory without any entry at an offset. -/
def Memory.erase : Memory → Nat → Memory
  | [], _ => []
  | (k, b) :: rest, o => if k = o then Memory.erase rest o else (k, b) :: Memory.erase rest o

/-- The memory with an entry put before the first larger offset. -/
def Memory.insert : Memory → Nat → Byte → Memory
  | [], o, v => [(o, v)]
  | (k, b) :: rest, o, v => if o < k then (o, v) :: (k, b) :: rest else (k, b) :: Memory.insert rest o v

/-- Write a byte, keeping the canonical form: the fill byte is written by listing nothing. -/
def Memory.write (m : Memory) (o : Nat) (v : Byte) : Memory :=
  if v = Config.ramFill then Memory.erase m o else Memory.insert (Memory.erase m o) o v

/-- Offsets strictly rising from `lo` on and below the RAM size, and no fill byte listed. -/
def Memory.wfFrom : Nat → Memory → Bool
  | _, [] => true
  | lo, (k, b) :: rest => decide (lo ≤ k) && decide (k < Config.ramSize) && decide (b ≠ Config.ramFill) && Memory.wfFrom (k + 1) rest

/-- The canonical form of RAM (log 25). -/
def Memory.wf (m : Memory) : Bool := Memory.wfFrom 0 m

/-- `RamWord(o)` inside the RAM: four bytes, little-endian (R53, R59). -/
def Memory.readWord (m : Memory) (o : Nat) : Word :=
  wordOfBytes (Memory.read m o) (Memory.read m (o + 1)) (Memory.read m (o + 2)) (Memory.read m (o + 3))

/-- `RamStore(o, v)` inside the RAM: four bytes, little-endian (R53, R59). -/
def Memory.writeWord (m : Memory) (o : Nat) (v : Word) : Memory :=
  Memory.write (Memory.write (Memory.write (Memory.write m o (byteLane v 0)) (o + 1) (byteLane v 1))
    (o + 2) (byteLane v 2)) (o + 3) (byteLane v 3)

/-! ### ROM bytes (20_memory.md R54) -/

/-- `RomByte(i)`: 0 past the image's end (R54). -/
def romByte (image : List Byte) (i : Nat) : Byte := image.getD i 0#8

/-- `RomWord(o)`: the missing bytes of a word that straddles the end read 0 (R54; DESIGN CHOICE of the spec, D14, log 10). -/
def romWord (image : List Byte) (o : Nat) : Word :=
  wordOfBytes (romByte image o) (romByte image (o + 1)) (romByte image (o + 2)) (romByte image (o + 3))

/-! ### Memory address decoder (20_memory.md R50 to R58) -/

/-- What stands behind a reduced address (R52), with the byte offset into what backs it. -/
inductive Backing where
  /-- backed RAM, through either RAM window. -/
  | ram (offset : Nat)
  /-- a RAM window beyond the 4 MiB (R53). -/
  | noRam
  /-- the logical window while `rom_low = 1`. -/
  | lowMappedRom (offset : Nat)
  /-- the high ROM window. -/
  | highRom (offset : Nat)
  /-- the I/O controllers' window, a stub. -/
  | io
  /-- the low ROM window, a stub. -/
  | lowRom
  deriving DecidableEq, Repr

/-- RAM offsets at or above `RAM_SIZE` are unbacked (R53; DESIGN CHOICE of the spec, D11, unsafe, log 9). -/
def ramBacking (o : Nat) : Backing := if o < Config.ramSize then .ram o else .noRam

/-- Address reduction (R51) and the region table (R52). The low-mapped ROM is read at the address itself (D12, log 10). -/
def locate (romLow : Bool) (addr : Word) : Backing :=
  let a := (addr &&& Config.addrMask).toNat
  if a < 0x2000000 then (if romLow then .lowMappedRom a else ramBacking a)
  else if a < 0x3000000 then ramBacking (a - 0x2000000)
  else if a < 0x3400000 then .io
  else if a < 0x3800000 then .lowRom
  else .highRom (a - 0x3800000)

/-- What stands behind an address now. -/
def State.backing (s : State) (addr : Word) : Backing := locate s.romLow addr

/-- The RAM offset of the word an address selects, where RAM stands behind it (R53, R70 "RAM-backed"). -/
def State.ramOffset (s : State) (addr : Word) : Option Nat :=
  match s.backing addr with
  | .ram o => some o
  | _ => none

/-- `load_word(addr)` (R55, R52). -/
def State.loadWord (s : State) (addr : Word) : Word :=
  match s.backing addr with
  | .ram o => Memory.readWord s.ram o
  | .lowMappedRom o => romWord s.romImage o
  | .highRom o => romWord s.romImage o
  | .noRam => 0#32
  | .io => 0#32
  | .lowRom => 0#32

/-- `store_word(addr, value)` (R56, R52): only RAM can change; a write elsewhere is dropped
(for the ROM regions DESIGN CHOICE of the spec, D13, log 10). -/
def State.storeWord (s : State) (addr v : Word) : State :=
  match s.backing addr with
  | .ram o => { s with ram := Memory.writeWord s.ram o v }
  | .lowMappedRom _ => s
  | .highRom _ => s
  | .noRam => s
  | .io => s
  | .lowRom => s

/-- The byte lane an address selects, `addr & 3` (R57). -/
def laneOf (addr : Word) : Nat := (addr &&& 3#32).toNat

/-- `load_byte(addr)`: the lane of the containing word (R57). -/
def State.loadByte (s : State) (addr : Word) : Byte := byteLane (s.loadWord addr) (laneOf addr)

/-- The word `store_byte` stores: the byte at its lane, zeros elsewhere (R58; zeros are DESIGN CHOICE of the spec, D16, log 12). -/
def byteInLane (addr : Word) (b : Byte) : Word := (b.zeroExtend 32) <<< (8 * laneOf addr)

/-- `store_byte(addr, value)`: stores the whole word (R58). -/
def State.storeByte (s : State) (addr : Word) (b : Byte) : State := s.storeWord addr (byteInLane addr b)

/-! ### Diagnostics (20_memory.md R62, 60_exceptions.md R169, log 20) -/

/-- The two non-fatal reports. -/
inductive Diagnostic where
  /-- a read beyond the high-ROM image's length. -/
  | outOfBoundsRomRead
  /-- an access to the I/O or low-ROM window. -/
  | stubbedIoAccess
  deriving DecidableEq, Repr

/-- What a read at an address reports. A byte read compares its containing word's offset, not its own byte offset, with the image's
length, so a byte past the end inside a word that straddles it is not reported (DESIGN CHOICE, log 20). -/
def State.readDiagnostic (s : State) (addr : Word) : Option Diagnostic :=
  match s.backing addr with
  | .highRom o => if s.romImage.length ≤ o then some .outOfBoundsRomRead else none
  | .io => some .stubbedIoAccess
  | .lowRom => some .stubbedIoAccess
  | .ram _ => none
  | .noRam => none
  | .lowMappedRom _ => none

/-- What a write at an address reports. -/
def State.writeDiagnostic (s : State) (addr : Word) : Option Diagnostic :=
  match s.backing addr with
  | .io => some .stubbedIoAccess
  | .lowRom => some .stubbedIoAccess
  | .highRom _ => none
  | .ram _ => none
  | .noRam => none
  | .lowMappedRom _ => none

/-! ### Fetch unit (40_step_cycle.md R101, R102) -/

/-- The fetch address `(pc - 8) & 0x03FFFFFC` (R101; the reduced value is the one reported, D4, log 7). -/
def State.fetchAddr (s : State) : Word := (s.getAddress Reg.pc - Config.pipeOffset) &&& Config.addrMask

/-- The fetched word (R102). -/
def State.fetchWord (s : State) : Word := s.loadWord s.fetchAddr

/-! ### The instruction in flight (10_state.md R36, 40_step_cycle.md R108, R109) -/

/-- The state while an instruction executes, with the transient `pc_written` (R36). -/
structure InFlight where
  /-- the state the instruction has made so far. -/
  st : State
  /-- whether the instruction has written logical register 15 (R108). -/
  pcWritten : Bool
  deriving DecidableEq, Repr

/-- Execution starts with `pc_written` false (R108). -/
def InFlight.start (s : State) : InFlight := ⟨s, false⟩

/-- `set` inside an instruction: a write of register 15 sets `pc_written`, whatever the value (R108; write event, D2, unsafe, log 5). -/
def InFlight.set (x : InFlight) (r : Reg) (v : Word) : InFlight := ⟨x.st.set r v, x.pcWritten || r == Reg.pc⟩

/-- `set_address` inside an instruction: a write of register 15 sets `pc_written` (R108; write event, D2, unsafe, log 5). -/
def InFlight.setAddress (x : InFlight) (r : Reg) (v : Word) : InFlight := ⟨x.st.setAddress r v, x.pcWritten || r == Reg.pc⟩

/-- `store_word` inside an instruction. -/
def InFlight.storeWord (x : InFlight) (addr v : Word) : InFlight := ⟨x.st.storeWord addr v, x.pcWritten⟩

/-- `store_byte` inside an instruction. -/
def InFlight.storeByte (x : InFlight) (addr : Word) (b : Byte) : InFlight := ⟨x.st.storeByte addr b, x.pcWritten⟩

/-- The PC advance, the last action of a step that did not fault: 8 when the PC was written, else 4 (R109). -/
def InFlight.retire (x : InFlight) : State :=
  x.st.setAddress Reg.pc (x.st.getAddress Reg.pc + (if x.pcWritten then Config.takenInc else Config.seqInc))

/-! ### The one exception (60_exceptions.md R160 to R168)

There is no vector dispatch and no trap entry (R163, R167), and no return from a trap (R168, R154): taking the exception
is ending the step with its payload, and there is no return operation to write beside it. -/

/-- `raise UndefinedInstruction(fetch_addr, word)`: the step ends with the payload; no state changes (R160 to R162; log 17). -/
def raiseUndefined (s : State) (word : Word) : Outcome := .fault (.undefinedInstruction s.fetchAddr word)

end Sys2Proof.Machine
end

