-- ==== Sys2Proof/Machine/Flags.lean ====
section
/-! DEFINITION. The condition-code evaluator and the frame it puts around execution (40_step_cycle.md rules R105 to R109).
No instruction computes a flag (00_scope.md R18, 10_state.md R32). -/

namespace Sys2Proof.Machine

/-- The flags of R15 (10_state.md R30). -/
structure Flags where
  n : Bool
  z : Bool
  c : Bool
  v : Bool
  deriving DecidableEq, Repr

/-- N, Z, C, V are bits 31, 30, 29, 28 of the packed R15 (R30). -/
def flagsOf (packed : Word) : Flags := ⟨packed.getLsbD 31, packed.getLsbD 30, packed.getLsbD 29, packed.getLsbD 28⟩

/-- `condition_met(cond, flags)` (R105). VS and VC test Z, as the spec's table directs (log 19). -/
def conditionMet (c : Cond) (f : Flags) : Bool :=
  match c with
  | .eq => f.z
  | .ne => !f.z
  | .cs => f.c
  | .cc => !f.c
  | .mi => f.n
  | .pl => !f.n
  | .vs => f.z
  | .vc => !f.z
  | .hi => f.c && !f.z
  | .ls => !f.c || f.z
  | .ge => f.n == f.v
  | .lt => f.n != f.v
  | .gt => !f.z && f.n == f.v
  | .le => f.z || f.n != f.v
  | .al => true
  | .nv => false

/-- The condition passes under the packed flags of R15 as they stand before execution (R105). -/
def State.passes (s : State) (c : Cond) : Bool := conditionMet c (flagsOf (s.get Reg.pc))

/-- An instruction that cannot fault: executed when its condition passes, skipped otherwise, then the PC advance
(R100, R106, R107, R109). -/
def underCondition (c : Cond) (body : InFlight → InFlight) (s : State) : Outcome :=
  .next (if s.passes c then body (InFlight.start s) else InFlight.start s).retire

/-- An Undefined word: raises when its condition passes, skipped otherwise (R106, R107, R152). -/
def undefinedUnderCondition (c : Cond) (word : Word) (s : State) : Outcome :=
  if s.passes c then raiseUndefined s word else .next (InFlight.start s).retire

end Sys2Proof.Machine
end

