-- ==== Sys2Proof/Machine/Operands.lean ====
section
/-! DEFINITION. The operand forms: branch offset (30_encoding.md R85), load/store offset, shift, effective address and
write-back (42_load_store.md rules R130, R131, R136). -/

namespace Sys2Proof.Machine

/-- The branch offset `zext_32(imm24) << 2`, unsigned (R85). -/
def branchOffset (imm24 : Nat) : Word := BitVec.ofNat 32 imm24 <<< 2

/-- The shifted register value (R130). Amount 0 leaves the value unchanged (DESIGN CHOICE of the spec, D19, unsafe, log 15). -/
def shiftValue (t : ShiftType) (v : Word) (n : Nat) : Word :=
  match t with
  | .lsl => v <<< n
  | .lsr => v >>> n
  | .asr => (v >>> n) ||| (if v.getLsbD 31 ∧ 0 < n then 0xFFFFFFFF#32 <<< (32 - n) else 0#32)
  | .ror => if n = 0 then v else (v >>> n) ||| (v <<< (32 - n))

/-- The immediate offset, zero-extended (R87, R130). -/
def immOffset (imm12 : Nat) : Word := BitVec.ofNat 32 imm12

/-- The register offset; Rm is read through the address-only path (R130; DESIGN CHOICE of the spec, D20, log 16). -/
def regOffset (s : State) (sh : ShiftedReg) : Word := shiftValue sh.stype (s.getAddress sh.rm) sh.amount

/-- `soff`: the offset, negated modulo 2^32 when U is clear (R130). -/
def signedOffset (ix : Indexing) (off : Word) : Word := if ix.up then off else 0#32 - off

/-- `ea`: base plus offset when pre-indexed, the base otherwise (R131). -/
def effectiveAddress (ix : Indexing) (base soff : Word) : Word := if ix.pre then base + soff else base

/-- `wb = W | ~P`: post-indexed addressing always writes back (R89). -/
def Indexing.writesBack (ix : Indexing) : Bool := ix.wbit || !ix.pre

/-- The value write-back stores: `ea` when pre-indexed, `ea + soff` when post-indexed (R136). -/
def writeBackValue (ix : Indexing) (ea soff : Word) : Word := if ix.pre then ea else ea + soff

/-- Write-back, the last effect of a transfer, through the address-only path (R136, R137; DESIGN CHOICE of the spec, D21 and
D22, unsafe, log 16). -/
def writeBack (ix : Indexing) (rn : Reg) (ea soff : Word) (x : InFlight) : InFlight :=
  if Indexing.writesBack ix then x.setAddress rn (writeBackValue ix ea soff) else x

/-- The execute operation of one transfer: the base is taken from its register as it is when execution starts, as the offset was,
then the transfer at the effective address, then write-back (R130, R131, R136, R137). -/
def transfer (ix : Indexing) (rn : Reg) (off : Word) (access : Word → InFlight → InFlight) (x : InFlight) : InFlight :=
  let soff := signedOffset ix off
  let ea := effectiveAddress ix (x.st.getAddress rn) soff
  writeBack ix rn ea soff (access ea x)

/-- `xa[Rd] <- MemRead(ea, 4)` (R132). -/
def loadWordInto (rd : Reg) (ea : Word) (x : InFlight) : InFlight := x.setAddress rd (x.st.loadWord ea)

/-- `xa[Rd] <- zext_32(MemRead(ea, 1))` (R133; zero extension is DESIGN CHOICE of the spec, D17, log 13). -/
def loadByteInto (rd : Reg) (ea : Word) (x : InFlight) : InFlight := x.setAddress rd ((x.st.loadByte ea).zeroExtend 32)

/-- `MemWrite(ea, 4, xa[Rd])` (R134). -/
def storeWordFrom (rd : Reg) (ea : Word) (x : InFlight) : InFlight := x.storeWord ea (x.st.getAddress rd)

/-- `MemWrite(ea, 1, xa[Rd][7:0])` (R135). -/
def storeByteFrom (rd : Reg) (ea : Word) (x : InFlight) : InFlight := x.storeByte ea ((x.st.getAddress rd).extractLsb' 0 8)

end Sys2Proof.Machine
end

