-- ==== Sys2Proof/Machine/Branch.lean ====
section
/-! DEFINITION. The branch unit (41_branch.md). -/

namespace Sys2Proof.Machine

/-- `pc <- (pc + offset) & 0x03FFFFFF` (R120; one vector disagrees with the rule, log 26). DEDUCED, unsafe. -/
def branchTo (imm24 : Nat) (x : InFlight) : InFlight :=
  x.setAddress Reg.pc ((x.st.getAddress Reg.pc + branchOffset imm24) &&& Config.branchMask)

/-- `x[14] <- xa[15]`: the link value is the address part of R15 (R121; DESIGN CHOICE of the spec, D7, unsafe, log 8). -/
def linkRegister (x : InFlight) : InFlight := x.set Reg.lr (x.st.getAddress Reg.pc)

/-- The execute operation of BL: the link, then the branch (R121). -/
def linkAndBranch (imm24 : Nat) (x : InFlight) : InFlight := branchTo imm24 (linkRegister x)

/-- B (R120). -/
def execB (c : Cond) (imm24 : Nat) (s : State) : Outcome := underCondition c (branchTo imm24) s

/-- BL (R121). -/
def execBl (c : Cond) (imm24 : Nat) (s : State) : Outcome := underCondition c (linkAndBranch imm24) s

end Sys2Proof.Machine
end

