-- ==== Sys2Proof/Machine/DataProcessing.lean ====
section
/-! DEFINITION. The Data-Processing stub (43_data_processing_and_undefined.md rules R150, R151). -/

namespace Sys2Proof.Machine

/-- The execute operation of DP: nothing (R150). -/
def noOperation (x : InFlight) : InFlight := x

/-- DP: no operation, whatever the ignored bits are (R150). The ignored bits are an argument because the row has them. -/
def execDp (c : Cond) (_ignored : BitVec 26) (s : State) : Outcome := underCondition c noOperation s

end Sys2Proof.Machine
end

