-- ==== Sys2Proof/Machine/LoadStore.lean ====
section
/-! DEFINITION. The load/store unit (42_load_store.md): the execute operation of each form, and the form under its condition. -/

namespace Sys2Proof.Machine

/-! ### Execute operations -/

/-- STR, immediate offset (R134). -/
def strImmOperation (ix : Indexing) (rn rd : Reg) (imm12 : Nat) (x : InFlight) : InFlight :=
  transfer ix rn (immOffset imm12) (storeWordFrom rd) x

/-- LDR, immediate offset (R132). -/
def ldrImmOperation (ix : Indexing) (rn rd : Reg) (imm12 : Nat) (x : InFlight) : InFlight :=
  transfer ix rn (immOffset imm12) (loadWordInto rd) x

/-- STRB, immediate offset (R135). -/
def strbImmOperation (ix : Indexing) (rn rd : Reg) (imm12 : Nat) (x : InFlight) : InFlight :=
  transfer ix rn (immOffset imm12) (storeByteFrom rd) x

/-- LDRB, immediate offset (R133). -/
def ldrbImmOperation (ix : Indexing) (rn rd : Reg) (imm12 : Nat) (x : InFlight) : InFlight :=
  transfer ix rn (immOffset imm12) (loadByteInto rd) x

/-- STR, register offset (R134). -/
def strRegOperation (ix : Indexing) (rn rd : Reg) (sh : ShiftedReg) (x : InFlight) : InFlight :=
  transfer ix rn (regOffset x.st sh) (storeWordFrom rd) x

/-- LDR, register offset (R132). -/
def ldrRegOperation (ix : Indexing) (rn rd : Reg) (sh : ShiftedReg) (x : InFlight) : InFlight :=
  transfer ix rn (regOffset x.st sh) (loadWordInto rd) x

/-- STRB, register offset (R135). -/
def strbRegOperation (ix : Indexing) (rn rd : Reg) (sh : ShiftedReg) (x : InFlight) : InFlight :=
  transfer ix rn (regOffset x.st sh) (storeByteFrom rd) x

/-- LDRB, register offset (R133). -/
def ldrbRegOperation (ix : Indexing) (rn rd : Reg) (sh : ShiftedReg) (x : InFlight) : InFlight :=
  transfer ix rn (regOffset x.st sh) (loadByteInto rd) x

/-! ### Under the condition -/

/-- STR, immediate offset (R134). -/
def execStrImm (c : Cond) (ix : Indexing) (rn rd : Reg) (imm12 : Nat) (s : State) : Outcome :=
  underCondition c (strImmOperation ix rn rd imm12) s

/-- LDR, immediate offset (R132). -/
def execLdrImm (c : Cond) (ix : Indexing) (rn rd : Reg) (imm12 : Nat) (s : State) : Outcome :=
  underCondition c (ldrImmOperation ix rn rd imm12) s

/-- STRB, immediate offset (R135). -/
def execStrbImm (c : Cond) (ix : Indexing) (rn rd : Reg) (imm12 : Nat) (s : State) : Outcome :=
  underCondition c (strbImmOperation ix rn rd imm12) s

/-- LDRB, immediate offset (R133). -/
def execLdrbImm (c : Cond) (ix : Indexing) (rn rd : Reg) (imm12 : Nat) (s : State) : Outcome :=
  underCondition c (ldrbImmOperation ix rn rd imm12) s

/-- STR, register offset (R134). -/
def execStrReg (c : Cond) (ix : Indexing) (rn rd : Reg) (sh : ShiftedReg) (s : State) : Outcome :=
  underCondition c (strRegOperation ix rn rd sh) s

/-- LDR, register offset (R132). -/
def execLdrReg (c : Cond) (ix : Indexing) (rn rd : Reg) (sh : ShiftedReg) (s : State) : Outcome :=
  underCondition c (ldrRegOperation ix rn rd sh) s

/-- STRB, register offset (R135). -/
def execStrbReg (c : Cond) (ix : Indexing) (rn rd : Reg) (sh : ShiftedReg) (s : State) : Outcome :=
  underCondition c (strbRegOperation ix rn rd sh) s

/-- LDRB, register offset (R133). -/
def execLdrbReg (c : Cond) (ix : Indexing) (rn rd : Reg) (sh : ShiftedReg) (s : State) : Outcome :=
  underCondition c (ldrbRegOperation ix rn rd sh) s

end Sys2Proof.Machine
end

