-- ==== Sys2Proof/Machine/Undefined.lean ====
section
/-! DEFINITION. The Undefined class (43_data_processing_and_undefined.md rules R152, R153). The fault carries the fetched
word (60_exceptions.md R161), which is the encoding of the decoded instruction. -/

namespace Sys2Proof.Machine

/-- UND, class bits 100 (R152). -/
def execUnd100 (c : Cond) (ignored : BitVec 25) (s : State) : Outcome :=
  undefinedUnderCondition c (encode (.und100 c ignored)) s

/-- UND, class bits 11x (R152). -/
def execUnd11x (c : Cond) (ignored : BitVec 26) (s : State) : Outcome :=
  undefinedUnderCondition c (encode (.und11x c ignored)) s

end Sys2Proof.Machine
end

