-- ==== Sys2Proof/Machine/Dispatch.lean ====
section
/-! DEFINITION. The dispatch on the decoded instruction (40_step_cycle.md rule R107): one arm per row of the opcode table. -/

namespace Sys2Proof.Machine

def exec (i : Instr) (s : State) : Host.Outcome State Fault Refusal :=
  match i with
  | .b c imm24 => Sys2Proof.Machine.execB c imm24 s
  | .bl c imm24 => Sys2Proof.Machine.execBl c imm24 s
  | .strImm c ix rn rd imm12 => Sys2Proof.Machine.execStrImm c ix rn rd imm12 s
  | .ldrImm c ix rn rd imm12 => Sys2Proof.Machine.execLdrImm c ix rn rd imm12 s
  | .strbImm c ix rn rd imm12 => Sys2Proof.Machine.execStrbImm c ix rn rd imm12 s
  | .ldrbImm c ix rn rd imm12 => Sys2Proof.Machine.execLdrbImm c ix rn rd imm12 s
  | .strReg c ix rn rd sh => Sys2Proof.Machine.execStrReg c ix rn rd sh s
  | .ldrReg c ix rn rd sh => Sys2Proof.Machine.execLdrReg c ix rn rd sh s
  | .strbReg c ix rn rd sh => Sys2Proof.Machine.execStrbReg c ix rn rd sh s
  | .ldrbReg c ix rn rd sh => Sys2Proof.Machine.execLdrbReg c ix rn rd sh s
  | .dp c ignored => Sys2Proof.Machine.execDp c ignored s
  | .und100 c ignored => Sys2Proof.Machine.execUnd100 c ignored s
  | .und11x c ignored => Sys2Proof.Machine.execUnd11x c ignored s

end Sys2Proof.Machine
end

