-- ==== Sys2Proof/Machine/Loader.lean ====
section
/-! DEFINITION. Placing a word where the next step fetches it (the fixed interface of the host; logs 1 and 23). No rule of the
spec writes the ROM image: this stands for the host supplying another image at construction (00_scope.md rule R8). -/

namespace Sys2Proof.Machine

/-- A ROM image that holds the word at an offset, lengthened with zeros where it ends before it. -/
def romWithWord (image : List Byte) (o : Nat) (w : Word) : List Byte :=
  image.take o ++ List.replicate (o - image.length) 0#8 ++ bytesOfWord w ++ image.drop (o + 4)

/-- The RAM address execution moves to where nothing that can hold a word stands behind the fetch address (log 23). -/
def spareFetchAddr : Word := 0x02000000#32

/-- The state whose next fetch reads the word: in RAM or ROM at the fetch address; where neither stands there, in RAM at
`spareFetchAddr` with the PC moved so that the fetch goes there (log 23). -/
def State.placeFetchWord (s : State) (w : Word) : State :=
  match s.backing s.fetchAddr with
  | .ram _ => s.storeWord s.fetchAddr w
  | .lowMappedRom o => { s with romImage := romWithWord s.romImage o w }
  | .highRom o => { s with romImage := romWithWord s.romImage o w }
  | .noRam => (s.setAddress Reg.pc (spareFetchAddr + Config.pipeOffset)).storeWord spareFetchAddr w
  | .io => (s.setAddress Reg.pc (spareFetchAddr + Config.pipeOffset)).storeWord spareFetchAddr w
  | .lowRom => (s.setAddress Reg.pc (spareFetchAddr + Config.pipeOffset)).storeWord spareFetchAddr w

end Sys2Proof.Machine
end

