-- ==== Sys2Proof/Machine/Step.lean ====
section
/-! DEFINITION. One step: fetch, decode, execute under the condition, PC advance (40_step_cycle.md rules R100 to R110). -/

namespace Sys2Proof.Machine

/-- `step()` (R100): the word at the fetch address is decoded afresh and executed (R101 to R103, R107). Any word decodes
(30_encoding.md R82), so a step ends in a next state or in the one fault (R110). -/
def step (s : State) : Host.Outcome State Fault Refusal := exec (decodeWord s.fetchWord) s

/-- The state with the instruction whose table bits are `w` placed where the next step fetches it (logs 1 and 23). -/
def State.withFetchWord (s : State) (nbits w : Nat) : State := s.placeFetchWord (BitVec.ofNat 32 (w % 2 ^ nbits))

end Sys2Proof.Machine
end

