-- ==== Sys2Proof/Machine/Trace.lean ====
section
/-! DEFINITION. The content of the trace line a step emits (40_step_cycle.md rule R111, 30_encoding.md R95). The line's text
beyond this content is not given by the spec and is out of its scope (00_scope.md R4, log 20). -/

namespace Sys2Proof.Machine

/-- The offset part of a Load/Store's addressing-mode text: "the immediate/register/pre/post forms" (R95). -/
inductive OffsetText where
  | imm (imm12 : Nat)
  | shiftedReg (sh : ShiftedReg)
  deriving DecidableEq, Repr

/-- What the matched instruction's disassemble operation says (R95). -/
inductive Disassembly where
  /-- `B<cond> 0x<target>` or `BL<cond> 0x<target>`. -/
  | branch (link : Bool) (c : Cond) (target : Word)
  /-- `LDR`/`STR`, `B` suffix for bytes, condition, destination register, addressing mode. -/
  | transfer (load byte : Bool) (c : Cond) (rd rn : Reg) (ix : Indexing) (off : OffsetText)
  /-- the Data-Processing placeholder marker. -/
  | dataProcessingPlaceholder
  /-- the placeholder `...<cond>`. -/
  | noMatch (c : Cond)
  deriving DecidableEq, Repr

/-- The branch target the trace shows: fetch address plus 8 plus offset, masked to 26 bits (R95). -/
def traceTarget (fetchAddr : Word) (imm24 : Nat) : Word := (fetchAddr + 8#32 + branchOffset imm24) &&& Config.branchMask

/-- The disassembly of an instruction fetched from an address (R95). -/
def disassemble (fetchAddr : Word) (i : Instr) : Disassembly :=
  match i with
  | .b c imm24 => .branch false c (traceTarget fetchAddr imm24)
  | .bl c imm24 => .branch true c (traceTarget fetchAddr imm24)
  | .strImm c ix rn rd imm12 => .transfer false false c rd rn ix (.imm imm12)
  | .ldrImm c ix rn rd imm12 => .transfer true false c rd rn ix (.imm imm12)
  | .strbImm c ix rn rd imm12 => .transfer false true c rd rn ix (.imm imm12)
  | .ldrbImm c ix rn rd imm12 => .transfer true true c rd rn ix (.imm imm12)
  | .strReg c ix rn rd sh => .transfer false false c rd rn ix (.shiftedReg sh)
  | .ldrReg c ix rn rd sh => .transfer true false c rd rn ix (.shiftedReg sh)
  | .strbReg c ix rn rd sh => .transfer false true c rd rn ix (.shiftedReg sh)
  | .ldrbReg c ix rn rd sh => .transfer true true c rd rn ix (.shiftedReg sh)
  | .dp _ _ => .dataProcessingPlaceholder
  | .und100 c _ => .noMatch c
  | .und11x c _ => .noMatch c

/-- The content of one trace line (R111). -/
structure TraceLine where
  fetchAddr : Word
  word : Word
  text : Disassembly
  deriving DecidableEq, Repr

/-- The line a step from this state emits, whether or not its condition passes, and before a fault (R111; D23). -/
def State.traceLine (s : State) : TraceLine := ⟨s.fetchAddr, s.fetchWord, disassemble s.fetchAddr (decodeWord s.fetchWord)⟩

end Sys2Proof.Machine
end

