-- ==== Sys2Proof/Machine/Execute.lean ====
section
/-! DEFINITION. `execute(word, register file, memory)` of the execution units as an operation of its own (00_scope.md rules R7,
R8): the effect alone, without the condition test and without the PC advance of a step. -/

namespace Sys2Proof.Machine

/-- The execute operation of an instruction's unit (40_step_cycle.md R107). The Undefined class has no execution unit (00_scope.md
R3), so nothing is executed for it (DESIGN CHOICE, log 18). -/
def executeOperation (i : Instr) (x : InFlight) : InFlight :=
  match i with
  | .b _ imm24 => branchTo imm24 x
  | .bl _ imm24 => linkAndBranch imm24 x
  | .strImm _ ix rn rd imm12 => strImmOperation ix rn rd imm12 x
  | .ldrImm _ ix rn rd imm12 => ldrImmOperation ix rn rd imm12 x
  | .strbImm _ ix rn rd imm12 => strbImmOperation ix rn rd imm12 x
  | .ldrbImm _ ix rn rd imm12 => ldrbImmOperation ix rn rd imm12 x
  | .strReg _ ix rn rd sh => strRegOperation ix rn rd sh x
  | .ldrReg _ ix rn rd sh => ldrRegOperation ix rn rd sh x
  | .strbReg _ ix rn rd sh => strbRegOperation ix rn rd sh x
  | .ldrbReg _ ix rn rd sh => ldrbRegOperation ix rn rd sh x
  | .dp _ _ => noOperation x
  | .und100 _ _ => x
  | .und11x _ _ => x

/-- The host's execute of a word between steps: each word goes to the unit of its class, and the transient `pc_written`, which
does not exist between steps (10_state.md R36), is dropped (DESIGN CHOICE, log 18). -/
def State.executeWord (s : State) (w : Word) : State := (executeOperation (decodeWord w) (InFlight.start s)).st

end Sys2Proof.Machine
end

