-- ==== Sys2Proof/Machine/HostPort.lean ====
section
/-! DEFINITION. What the host may do between steps (00_scope.md rule R8, log 18) and `run()` (40_step_cycle.md R112, log 22). -/

namespace Sys2Proof.Machine

/-- A host operation that changes state (R7, R8). The other operations of R7 change none: `get`, `get_address`, `mode`, `load_word`,
`load_byte`, `decode` and `condition_met`; `step()` and `run()` are `step` and `State.run`. -/
inductive HostAction where
  /-- `set(reg, value)` (10_state.md R26). -/
  | setRegister (r : Reg) (v : Word)
  /-- `set_address(reg, value)` (10_state.md R28). -/
  | setAddress (r : Reg) (v : Word)
  /-- `store_word(addr, value)` (20_memory.md R56). -/
  | storeWord (addr v : Word)
  /-- `store_byte(addr, value)` (20_memory.md R58). -/
  | storeByte (addr : Word) (b : Byte)
  /-- `execute(word, register file, memory)` of the word's unit (R7), on the core's own register file and memory. -/
  | execute (word : Word)
  /-- the host drives `rom_low` (10_state.md R35; D15, log 11). -/
  | driveRomLow (level : Bool)
  deriving DecidableEq, Repr

/-- The state after a host operation. -/
def State.hostAction (s : State) : HostAction → State
  | .setRegister r v => s.set r v
  | .setAddress r v => s.setAddress r v
  | .storeWord addr v => s.storeWord addr v
  | .storeByte addr b => s.storeByte addr b
  | .execute word => s.executeWord word
  | .driveRomLow level => { s with romLow := level }

/-- `run()` for at most `fuel` steps (R112): it ends at the first fault, with that fault and the state the fault leaves, which
is the state before the faulting step (60_exceptions.md R162). -/
def State.run (s : State) : Nat → State × Option Fault
  | 0 => (s, none)
  | fuel + 1 =>
    match step s with
    | .next t => t.run fuel
    | .fault f => (s, some f)
    | .refused _ => (s, none)

end Sys2Proof.Machine
end

