-- ==== Sys2Proof/Safety.lean ====
section
/-! DEFINITION. The terms claims about runs are made in: the invariant of the state, the states a machine can reach, and a run
without a fault. -/

namespace Sys2Proof.Machine

/-- The invariant of the state: RAM is in canonical form (log 25). Every other field can hold any value (10_state.md R30). -/
def State.Inv (s : State) : Prop := Memory.wf s.ram = true

/-- A state the core can be in: after construction, after a step, after a host operation between steps (00_scope.md R8). -/
inductive Reachable : State → Prop where
  | construct (image : List Byte) : Reachable (State.construct image)
  | step {s t : State} : Reachable s → step s = .next t → Reachable t
  | host {s : State} (a : HostAction) : Reachable s → Reachable (s.hostAction a)

/-- `n` steps from the state end without the fault (60_exceptions.md R160). -/
def State.runsSafely (s : State) (n : Nat) : Prop := (s.run n).2 = none

/-- The bits of R15 outside the program counter (10_state.md R28): flags, bits 27:26, mode. -/
def State.status (s : State) : Word := s.slot 15 &&& Config.statusMask

end Sys2Proof.Machine
end

