-- ==== Sys2Proof/Certificates/Slice0/Obligations.lean ====
section
/-! DEFINITION. The statements for the provers. No statement here is proved in the package. -/

namespace Sys2Proof.Claims

open Sys2Proof.Machine

/-! ### The terms the statements share -/

/-- R15 with its flags, bits 27:26 and mode kept and its program counter replaced (10_state.md R28). -/
def r15With (packed pc : Word) : Word := (packed &&& 0xFC000003#32) ||| (pc &&& 0x03FFFFFC#32)

/-- The memory is the same, field by field and as every byte read sees it. -/
def SameMemory (s t : State) : Prop :=
  t.ram = s.ram ∧ t.romLow = s.romLow ∧ t.romImage = s.romImage ∧ ∀ a : Word, t.loadByte a = s.loadByte a

/-- Nothing differs but the program counter, which is the address part of `pc`. -/
def OnlyPcChanges (s t : State) (pc : Word) : Prop :=
  (∀ k : Fin 27, k ≠ 15 → t.slot k = s.slot k) ∧ t.slot 15 = r15With (s.slot 15) pc ∧ SameMemory s t

/-- No slot that the mode of `s` hides differs. -/
def HiddenSlotsKept (s t : State) : Prop := ∀ k : Fin 27, (∀ r : Reg, k ≠ phys s.mode r) → t.slot k = s.slot k

/-- `soff` of 42_load_store.md R130. -/
def soffOf (ix : Indexing) (off : Word) : Word := if ix.up then off else 0#32 - off

/-- `ea` of 42_load_store.md R131. -/
def eaOf (ix : Indexing) (base soff : Word) : Word := if ix.pre then base + soff else base

/-- `wb` of 30_encoding.md R89. -/
abbrev wbOf (ix : Indexing) : Prop := ix.wbit = true ∨ ix.pre = false

/-- The two addresses select the same word of backed RAM. -/
abbrev SameRamWord (s : State) (ea a : Word) : Prop := s.ramOffset ea ≠ none ∧ s.ramOffset a = s.ramOffset ea

/-- A load completes: `Rd` holds the value loaded from `ea`, then a base that is written back holds base plus offset; the PC is
the value written to R15 plus 8, or advances by 4; nothing else changes. -/
def LoadCompletes (i : Instr) (ix : Indexing) (rn rd : Reg) (off : Word) (value : Word → Word) (s : State) : Prop :=
  ∃ t : State, exec i s = .next t ∧
    (∀ r : Reg, r ≠ 15 → t.get r =
      if wbOf ix ∧ r = rn then s.getAddress rn + soffOf ix off
      else if r = rd then value (eaOf ix (s.getAddress rn) (soffOf ix off))
      else s.get r) ∧
    t.slot 15 = r15With (s.slot 15)
      (if wbOf ix ∧ rn = 15 then s.getAddress rn + soffOf ix off + 8#32
      else if rd = 15 then value (eaOf ix (s.getAddress rn) (soffOf ix off)) + 8#32
      else s.getAddress 15 + 4#32) ∧
    HiddenSlotsKept s t ∧ SameMemory s t

/-- A store completes: the RAM word that `ea` selects holds `stored ea`, every byte outside it reads as before, then a base that
is written back holds base plus offset; the PC is the value written to R15 plus 8, or advances by 4; nothing else changes. -/
def StoreCompletes (i : Instr) (ix : Indexing) (rn : Reg) (off : Word) (stored : Word → Word) (s : State) : Prop :=
  ∃ t : State, exec i s = .next t ∧
    (∀ r : Reg, r ≠ 15 → t.get r = if wbOf ix ∧ r = rn then s.getAddress rn + soffOf ix off else s.get r) ∧
    t.slot 15 = r15With (s.slot 15)
      (if wbOf ix ∧ rn = 15 then s.getAddress rn + soffOf ix off + 8#32 else s.getAddress 15 + 4#32) ∧
    HiddenSlotsKept s t ∧ t.romLow = s.romLow ∧ t.romImage = s.romImage ∧
    (∀ a : Word, SameRamWord s (eaOf ix (s.getAddress rn) (soffOf ix off)) a →
      t.loadWord a = stored (eaOf ix (s.getAddress rn) (soffOf ix off))) ∧
    (∀ a : Word, ¬ SameRamWord s (eaOf ix (s.getAddress rn) (soffOf ix off)) a → t.loadByte a = s.loadByte a)

/-- A base written back to R15 decides where a transfer goes next; otherwise a value loaded into R15 does. `i` makes the
instruction from its base and its other register. -/
def R15DecidesTheNextFetch (i : Reg → Reg → Instr) (ix : Indexing) (off : Word) (loaded : Option (Word → Word)) (s : State) :
    Prop :=
  (∀ rd : Reg, wbOf ix → ∃ t : State, exec (i 15 rd) s = .next t ∧
    t.fetchAddr = (s.getAddress 15 + soffOf ix off) &&& 0x03FFFFFC#32) ∧
  match loaded with
  | none => True
  | some value => ∀ rn : Reg, ¬ (wbOf ix ∧ rn = 15) →
    ∃ t : State, exec (i rn 15) s = .next t ∧
      t.fetchAddr = value (eaOf ix (s.getAddress rn) (soffOf ix off)) &&& 0x03FFFFFC#32

/-- The numbers of the condition codes (30_encoding.md R94). -/
def condCode : Cond → Nat
  | .eq => 0x0
  | .ne => 0x1
  | .cs => 0x2
  | .cc => 0x3
  | .mi => 0x4
  | .pl => 0x5
  | .vs => 0x6
  | .vc => 0x7
  | .hi => 0x8
  | .ls => 0x9
  | .ge => 0xA
  | .lt => 0xB
  | .gt => 0xC
  | .le => 0xD
  | .al => 0xE
  | .nv => 0xF

/-- The numbers of the shift types (30_encoding.md R88). PRESUMED (log 14). -/
def shiftCode : ShiftType → Nat
  | .lsl => 0
  | .lsr => 1
  | .asr => 2
  | .ror => 3

/-- The instruction's execute operation writes R15: a branch, a load into R15, a write-back to R15 (40_step_cycle.md R108). -/
def WritesR15 : Instr → Prop
  | .b _ _ => True
  | .bl _ _ => True
  | .strImm _ ix rn _ _ => wbOf ix ∧ rn = 15
  | .ldrImm _ ix rn rd _ => rd = 15 ∨ (wbOf ix ∧ rn = 15)
  | .strbImm _ ix rn _ _ => wbOf ix ∧ rn = 15
  | .ldrbImm _ ix rn rd _ => rd = 15 ∨ (wbOf ix ∧ rn = 15)
  | .strReg _ ix rn _ _ => wbOf ix ∧ rn = 15
  | .ldrReg _ ix rn rd _ => rd = 15 ∨ (wbOf ix ∧ rn = 15)
  | .strbReg _ ix rn _ _ => wbOf ix ∧ rn = 15
  | .ldrbReg _ ix rn rd _ => rd = 15 ∨ (wbOf ix ∧ rn = 15)
  | .dp _ _ => False
  | .und100 _ _ => False
  | .und11x _ _ => False

/-- The address of the instruction after a store: the base written back to R15, or the next word. -/
def fetchAfterStore (ix : Indexing) (rn : Reg) (off : Word) (s : State) : Word :=
  (if wbOf ix ∧ rn = 15 then s.getAddress rn + soffOf ix off else s.fetchAddr + 4#32) &&& 0x03FFFFFC#32

/-- Where the store's word is the one fetched next, the next step runs what was stored. -/
def StoredWordIsRun (i : Instr) (ix : Indexing) (rn : Reg) (off : Word) (stored : Word → Word) (s : State) : Prop :=
  SameRamWord s (eaOf ix (s.getAddress rn) (soffOf ix off)) (fetchAfterStore ix rn off s) →
    ∃ t : State, exec i s = .next t ∧ t.fetchAddr = fetchAfterStore ix rn off s ∧
      step t = exec (decodeWord (stored (eaOf ix (s.getAddress rn) (soffOf ix off)))) t

/-- The number of four bytes from an offset on, least significant first (20_memory.md R59). -/
def leNumber (byteAt : Nat → Byte) (o : Nat) : Nat :=
  (byteAt o).toNat + 2 ^ 8 * (byteAt (o + 1)).toNat + 2 ^ 16 * (byteAt (o + 2)).toNat + 2 ^ 24 * (byteAt (o + 3)).toNat

/-- The reduced address as a number: a multiple of 4 below 2^26 (20_memory.md R51). -/
def reduced (addr : Word) : Nat := addr.toNat / 4 % 2 ^ 24 * 4

/-- Two states no instruction of their mode can tell apart: the registers, R15 among them, and the memory agree. -/
def SameView (s s' : State) : Prop :=
  (∀ r : Reg, s.get r = s'.get r) ∧ s.ram = s'.ram ∧ s.romLow = s'.romLow ∧ s.romImage = s'.romImage

/-- Two (mode, register) pairs name the same slot (10_state.md R23). -/
abbrev SharesSlot (m : Mode) (r : Reg) (m' : Mode) (r' : Reg) : Prop :=
  r = r' ∧
    (r.val ≤ 7 ∨ r = 15 ∨ (8 ≤ r.val ∧ r.val ≤ 12 ∧ (m = .fiq ↔ m' = .fiq)) ∨ ((r = 13 ∨ r = 14) ∧ m = m'))

end Sys2Proof.Claims

open Sys2Proof Sys2Proof.Machine Sys2Proof.Claims

/-! ### Encoding -/

/-- Decoding the bytes of any well-formed instruction gives it back with the bytes after it (30_encoding.md section 9). The
positions in the register-offset field are PRESUMED (log 14). -/
def Obligations.DecodeOfEncodeIsIdentity : Prop :=
  ∀ (i : Instr) (rest : List Byte), i.wellFormed = true → decode (encodeBytes i ++ rest) = .ok (i, rest)

/-- Every word decodes to a well-formed instruction whose word it is: no word is refused, and no bit is dropped, because the model
keeps the bits nothing examines (its own choice, log 24). The positions in the register-offset field are PRESUMED (log 14). -/
def Obligations.EncodeOfDecodeIsIdentity : Prop :=
  ∀ w : Word, (decodeWord w).wellFormed = true ∧ encode (decodeWord w) = w

/-- R82: the class by the three mask tests, checked in order, and the condition field takes no part. -/
def Obligations.DecodeClassifiesByTheMaskTests : Prop :=
  (∀ w : Word, (decodeWord w).class =
    if w &&& 0x0E000000#32 = 0x0A000000#32 then .branch
    else if w &&& 0x0C000000#32 = 0x00000000#32 then .dataProcessing
    else if w &&& 0x0C000000#32 = 0x04000000#32 then .loadStore
    else .undefined) ∧
  (∀ w w' : Word, w &&& 0x0FFFFFFF#32 = w' &&& 0x0FFFFFFF#32 → (decodeWord w).class = (decodeWord w').class)

/-- A word decodes to the instruction of a row exactly when its identifying bits have the row's value, so the rows are disjoint
and cover every word (30_encoding.md section 9). -/
def Obligations.EveryWordDecodesToTheRowItMatches : Prop :=
  ∀ (w : Word) (r : Row), w &&& r.mask = r.pattern ↔ (decodeWord w).row = r

/-- R84: the layout of the Branch words as a number. -/
def Obligations.BranchWordLayout : Prop :=
  ∀ (c : Cond) (imm24 : Nat), imm24 < 2 ^ 24 →
    (encode (.b c imm24)).toNat = condCode c * 2 ^ 28 + 5 * 2 ^ 25 + 0 * 2 ^ 24 + imm24 ∧
    (encode (.bl c imm24)).toNat = condCode c * 2 ^ 28 + 5 * 2 ^ 25 + 1 * 2 ^ 24 + imm24

/-- The layout of the Load/Store words as a number (30_encoding.md section 4); the positions in the register-offset field and the
codes of the shift types are PRESUMED (log 14). -/
def Obligations.TransferWordLayout : Prop :=
  ∀ (c : Cond) (ix : Indexing) (rn rd : Reg),
    (∀ imm12 : Nat, imm12 < 2 ^ 12 → ∃ head : Nat,
      head = condCode c * 2 ^ 28 + 1 * 2 ^ 26 + 0 * 2 ^ 25 + ix.pre.toNat * 2 ^ 24 + ix.up.toNat * 2 ^ 23
        + ix.wbit.toNat * 2 ^ 21 + rn.val * 2 ^ 16 + rd.val * 2 ^ 12 + imm12 ∧
      (encode (.strImm c ix rn rd imm12)).toNat = head ∧
      (encode (.ldrImm c ix rn rd imm12)).toNat = head + 2 ^ 20 ∧
      (encode (.strbImm c ix rn rd imm12)).toNat = head + 2 ^ 22 ∧
      (encode (.ldrbImm c ix rn rd imm12)).toNat = head + 2 ^ 22 + 2 ^ 20) ∧
    (∀ sh : ShiftedReg, sh.amount < 2 ^ 5 → ∃ head : Nat,
      head = condCode c * 2 ^ 28 + 1 * 2 ^ 26 + 1 * 2 ^ 25 + ix.pre.toNat * 2 ^ 24 + ix.up.toNat * 2 ^ 23
        + ix.wbit.toNat * 2 ^ 21 + rn.val * 2 ^ 16 + rd.val * 2 ^ 12
        + sh.amount * 2 ^ 7 + shiftCode sh.stype * 2 ^ 5 + sh.bit4.toNat * 2 ^ 4 + sh.rm.val ∧
      (encode (.strReg c ix rn rd sh)).toNat = head ∧
      (encode (.ldrReg c ix rn rd sh)).toNat = head + 2 ^ 20 ∧
      (encode (.strbReg c ix rn rd sh)).toNat = head + 2 ^ 22 ∧
      (encode (.ldrbReg c ix rn rd sh)).toNat = head + 2 ^ 22 + 2 ^ 20)

/-- Words written out in 95_test_vectors.md decode to the instructions they stand for there. -/
def Obligations.WordsOfTheSpecDecode : Prop :=
  decodeWord 0xEA000000#32 = .b .al 0 ∧
  decodeWord 0xEB000010#32 = .bl .al 0x10 ∧
  decodeWord 0xE5A12008#32 = .strImm .al ⟨true, true, true⟩ 1 2 8 ∧
  decodeWord 0xE7910103#32 = .ldrReg .al ⟨true, true, false⟩ 1 0 ⟨2, .lsl, false, 3⟩ ∧
  decodeWord 0xE1A00000#32 = .dp .al 0x1A00000#26 ∧
  decodeWord 0xE8BD8000#32 = .und100 .al 0x0BD8000#25 ∧
  decodeWord 0xEF000000#32 = .und11x .al 0x3000000#26

/-! ### Registers -/

/-- The slot each register reads in each mode (10_state.md section 2); that R15 has slot 15 is the spec's own inference (D6,
log 6). -/
def Obligations.RegistersReadTheSlotOfTheirMode : Prop :=
  ∀ (s : State) (r : Reg), ∃ k : Fin 27, s.get r = s.slot k ∧
    k.val = if r.val = 15 then 15
      else if (s.slot 15).toNat % 4 = 1 ∧ 8 ≤ r.val then r.val + 8
      else if (s.slot 15).toNat % 4 = 2 ∧ 13 ≤ r.val then r.val + 10
      else if (s.slot 15).toNat % 4 = 3 ∧ 13 ≤ r.val then r.val + 12
      else r.val

/-- A generic write stores all 32 bits where a read finds them, and changes no other slot; of R15 it replaces flags, mode and PC
at once (10_state.md section 2); that bits 27:26 of R15 are stored and read back is the spec's decision D5 (log 6). -/
def Obligations.GenericWriteReplacesOneSlot : Prop :=
  ∀ (s : State) (r : Reg) (v : Word),
    (s.set r v).get r = v ∧
    (∀ k : Fin 27, k ≠ phys s.mode r → (s.set r v).slot k = s.slot k) ∧
    SameMemory s (s.set r v) ∧
    (r ≠ 15 → (s.set r v).mode = s.mode ∧ ∀ r' : Reg, r' ≠ r → (s.set r v).get r' = s.get r') ∧
    (r = 15 → (s.set r v).mode = modeOf v)

/-- R27, R28: the address-only path reads and writes bits 25:2 of R15 alone, and is the generic path for every other register. -/
def Obligations.AddressOnlyPathOfR15 : Prop :=
  ∀ (s : State) (v : Word),
    s.getAddress 15 = s.get 15 &&& 0x03FFFFFC#32 ∧
    (s.setAddress 15 v).get 15 = (s.get 15 &&& 0xFC000003#32) ||| (v &&& 0x03FFFFFC#32) ∧
    (s.setAddress 15 v).getAddress 15 = v &&& 0x03FFFFFC#32 ∧
    (s.setAddress 15 v).get 15 &&& 0xFC000003#32 = s.get 15 &&& 0xFC000003#32 ∧
    (∀ k : Fin 27, k ≠ 15 → (s.setAddress 15 v).slot k = s.slot k) ∧
    (∀ r : Reg, r ≠ 15 → s.getAddress r = s.get r ∧ s.setAddress r v = s.set r v)

/-- A register written in one mode is read in another exactly when the two pairs share a slot (10_state.md section 2, the
spec's derivation from its slot table). -/
def Obligations.BankedRegistersAreSeparate : Prop :=
  ∀ (s : State) (r r' : Reg) (v w : Word), r ≠ 15 → r' ≠ 15 →
    ((s.set r v).set 15 w).get r' = if SharesSlot s.mode r (modeOf w) r' then v else (s.set 15 w).get r'

/-- No instruction reads or writes a slot its mode hides: states that agree on what the mode shows step alike and agree
afterwards, and each keeps its hidden slots (42_load_store.md section 5, 60_exceptions.md section 5). -/
def Obligations.HiddenBanksCannotBeObserved : Prop :=
  ∀ s s' : State, SameView s s' →
    match step s, step s' with
    | .next t, .next t' => SameView t t' ∧ HiddenSlotsKept s t ∧ HiddenSlotsKept s' t'
    | .fault f, .fault f' => f = f'
    | _, _ => False

/-! ### Memory -/

/-- The region table for reads (20_memory.md section 2). RAM beyond 4 MiB (D11, log 9), the low-mapped ROM's offset (D12) and
the straddling word (D14, log 10) are the spec's decisions. -/
def Obligations.LoadWordFollowsTheRegionTable : Prop :=
  ∀ (s : State) (a : Word),
    (reduced a < 0x2000000 → s.romLow = true →
      (s.loadWord a).toNat = leNumber (fun i => s.romImage.getD i 0) (reduced a)) ∧
    (reduced a < 0x400000 → s.romLow = false → (s.loadWord a).toNat = leNumber (Memory.read s.ram) (reduced a)) ∧
    (0x400000 ≤ reduced a → reduced a < 0x2000000 → s.romLow = false → s.loadWord a = 0#32) ∧
    (0x2000000 ≤ reduced a → reduced a < 0x2400000 →
      (s.loadWord a).toNat = leNumber (Memory.read s.ram) (reduced a - 0x2000000)) ∧
    (0x2400000 ≤ reduced a → reduced a < 0x3800000 → s.loadWord a = 0#32) ∧
    (0x3800000 ≤ reduced a →
      (s.loadWord a).toNat = leNumber (fun i => s.romImage.getD i 0) (reduced a - 0x3800000))

/-- The region table for writes (20_memory.md section 2): RAM takes the four bytes, little-endian; everywhere else the write is
dropped, which for RAM beyond 4 MiB (D11, log 9) and the ROM regions (D13, log 10) is the spec's decision. -/
def Obligations.StoreWordFollowsTheRegionTable : Prop :=
  ∀ (s : State) (a v : Word),
    (∀ o : Nat, (reduced a = o ∧ o < 0x400000 ∧ s.romLow = false) ∨ (reduced a = 0x2000000 + o ∧ o < 0x400000) →
      leNumber (Memory.read (s.storeWord a v).ram) o = v.toNat ∧
      (∀ j : Nat, j < o ∨ o + 4 ≤ j → Memory.read (s.storeWord a v).ram j = Memory.read s.ram j) ∧
      (s.storeWord a v).slots = s.slots ∧ (s.storeWord a v).romLow = s.romLow ∧
      (s.storeWord a v).romImage = s.romImage) ∧
    ((reduced a < 0x2000000 ∧ s.romLow = true) ∨ (0x400000 ≤ reduced a ∧ reduced a < 0x2000000) ∨
        0x2400000 ≤ reduced a →
      s.storeWord a v = s)

/-- With the ROM mapped away the two RAM windows show the same words (20_memory.md section 2; identity of the logical window is
the spec's decision D11, log 9). -/
def Obligations.RamWindowsShowTheSameWords : Prop :=
  ∀ (s : State) (a b v : Word), s.romLow = false → reduced a < 0x400000 → reduced b = 0x2000000 + reduced a →
    s.loadWord a = s.loadWord b ∧ s.storeWord a v = s.storeWord b v ∧ (s.storeWord a v).loadWord b = v

/-- R51: bits 31:26 and 1:0 of an address do not matter to a word access; a byte access keeps its lane; words are little-endian. -/
def Obligations.AddressesAreReducedTo26AlignedBits : Prop :=
  ∀ (s : State) (a a' v : Word) (b : Byte), a &&& 0x03FFFFFC#32 = a' &&& 0x03FFFFFC#32 →
    s.loadWord a = s.loadWord a' ∧ s.storeWord a v = s.storeWord a' v ∧
    (a &&& 3#32 = a' &&& 3#32 → s.loadByte a = s.loadByte a' ∧ s.storeByte a b = s.storeByte a' b) ∧
    (s.loadWord a).toNat = leNumber (fun k => s.loadByte ((a &&& 0x03FFFFFC#32) + BitVec.ofNat 32 k)) 0

/-- R57: `load_byte` is the lane `addr & 3` of the containing word, lane 0 least significant. -/
def Obligations.LoadByteIsTheSelectedLane : Prop :=
  ∀ (s : State) (a : Word), (s.loadByte a).toNat = (s.loadWord a).toNat / 2 ^ (8 * (a.toNat % 4)) % 2 ^ 8

/-- A byte store round-trips its byte and clobbers the other three of its word (20_memory.md sections 3 and 6); that they become
zero is the spec's decision D16 (log 12). Other words keep every byte. -/
def Obligations.ByteStoreClobbersItsNeighbours : Prop :=
  ∀ (s : State) (a a' : Word) (b : Byte), s.ramOffset a ≠ none →
    (s.storeByte a b).loadByte a = b ∧
    (s.ramOffset a' = s.ramOffset a → a'.toNat % 4 ≠ a.toNat % 4 → (s.storeByte a b).loadByte a' = 0#8) ∧
    (s.ramOffset a' ≠ s.ramOffset a → (s.storeByte a b).loadByte a' = s.loadByte a')

/-- When an access is diagnosed, over the reduced address and the image's length, and that it then reads 0 and writes nothing
(20_memory.md section 4, 60_exceptions.md section 4). That the word's offset, not a byte's, is compared with the length, and an
offset equal to it is reported, is the model's choice (log 20); the dropped low ROM write is the spec's decision D13 (log 10). -/
def Obligations.DiagnosedAccessesReadZeroAndWriteNothing : Prop :=
  ∀ (s : State) (a v : Word) (b : Byte),
    (s.readDiagnostic a = some .outOfBoundsRomRead ↔
      0x3800000 ≤ reduced a ∧ s.romImage.length ≤ reduced a - 0x3800000) ∧
    (s.readDiagnostic a = some .stubbedIoAccess ↔ 0x3000000 ≤ reduced a ∧ reduced a < 0x3800000) ∧
    (s.writeDiagnostic a = some .stubbedIoAccess ↔ 0x3000000 ≤ reduced a ∧ reduced a < 0x3800000) ∧
    s.writeDiagnostic a ≠ some .outOfBoundsRomRead ∧
    (s.readDiagnostic a ≠ none → s.loadWord a = 0#32 ∧ s.loadByte a = 0#8) ∧
    (s.writeDiagnostic a ≠ none → s.storeWord a v = s ∧ s.storeByte a b = s)

/-! ### Conditions and the step frame -/

/-- R105: the condition table over the code in bits 31:28 of the word and the flags N, Z, C, V in bits 31:28 of the packed R15; VS
(6) and VC (7) test Z. -/
def Obligations.ConditionTable : Prop :=
  ∀ (s : State) (w : Word), ∃ n z cy v : Bool,
    n = (s.get 15).getLsbD 31 ∧ z = (s.get 15).getLsbD 30 ∧ cy = (s.get 15).getLsbD 29 ∧ v = (s.get 15).getLsbD 28 ∧
    (s.passes (decodeWord w).cond = true ↔
      match w.toNat / 2 ^ 28 with
      | 0x0 => z = true
      | 0x1 => z = false
      | 0x2 => cy = true
      | 0x3 => cy = false
      | 0x4 => n = true
      | 0x5 => n = false
      | 0x6 => z = true
      | 0x7 => z = false
      | 0x8 => cy = true ∧ z = false
      | 0x9 => cy = false ∨ z = true
      | 0xA => n = v
      | 0xB => n ≠ v
      | 0xC => z = false ∧ n = v
      | 0xD => z = true ∨ n ≠ v
      | 0xE => True
      | _ => False)

/-- R106: an instruction of any class whose condition fails does nothing but advance the PC by 4. -/
def Obligations.FailedConditionOnlyAdvancesThePc : Prop :=
  ∀ (i : Instr) (s : State), s.passes i.cond = false →
    ∃ t : State, exec i s = .next t ∧ OnlyPcChanges s t (s.getAddress 15 + 4#32)

/-- A skipped instruction, and a Data-Processing word, moves the fetch address on by 4, wrapping in the 26-bit space
(40_step_cycle.md section 5, the spec's derivation). -/
def Obligations.SequentialFetchAdvancesByFour : Prop :=
  ∀ (i : Instr) (s : State), i.class = .dataProcessing ∨ s.passes i.cond = false →
    ∃ t : State, exec i s = .next t ∧ t.fetchAddr.toNat = (s.fetchAddr.toNat + 4) % 2 ^ 26

/-- A step decodes the four bytes at the fetch address `(pc - 8) & 0x03FFFFFC` and executes that instruction. -/
def Obligations.StepRunsTheDecodedInstruction : Prop :=
  ∀ (s : State) (i : Instr) (rest : List Byte) (f : Word), f = (s.getAddress 15 - 8#32) &&& 0x03FFFFFC#32 →
    decode (s.loadByte f :: s.loadByte (f + 1#32) :: s.loadByte (f + 2#32) :: s.loadByte (f + 3#32) :: rest) = .ok (i, rest) →
    step s = exec i s

/-- A step faults exactly on an Undefined word whose condition passes, with the fetch address and the word as payload; otherwise it
answers a next state; it never refuses (40_step_cycle.md sections 4 and 5, 60_exceptions.md section 1). -/
def Obligations.StepFaultsExactlyOnExecutedUndefinedWords : Prop :=
  ∀ s : State,
    (((decodeWord s.fetchWord).class = .undefined ∧ s.passes (decodeWord s.fetchWord).cond = true) →
      step s = .fault (.undefinedInstruction ((s.getAddress 15 - 8#32) &&& 0x03FFFFFC#32) s.fetchWord)) ∧
    (¬ ((decodeWord s.fetchWord).class = .undefined ∧ s.passes (decodeWord s.fetchWord).cond = true) →
      ∃ t : State, step s = .next t)

/-! ### Data-Processing and Undefined -/

/-- R150: a Data-Processing word, `cond 00 x...x`, shows a placeholder and does nothing but advance the PC by 4, whether or not its
condition passes and whatever its other bits are. -/
def Obligations.DataProcessingOnlyAdvancesThePc : Prop :=
  ∀ s : State,
    (∀ w : Word, w &&& 0x0C000000#32 = 0x00000000#32 →
      disassemble s.fetchAddr (decodeWord w) = .dataProcessingPlaceholder ∧
      ∃ t : State, exec (decodeWord w) s = .next t ∧ OnlyPcChanges s t (s.getAddress 15 + 4#32)) ∧
    (∀ (c : Cond) (ignored : BitVec 26), encode (.dp c ignored) &&& 0x0C000000#32 = 0x00000000#32 ∧
      ∃ t : State, exec (.dp c ignored) s = .next t ∧ OnlyPcChanges s t (s.getAddress 15 + 4#32))

/-- R152: an Undefined word, `cond 100 x...x` or `cond 11 x...x`, decodes to its own class; it raises the fault with the fetch
address and the word when its condition passes, and is skipped otherwise. -/
def Obligations.UndefinedRaisesOrIsSkipped : Prop :=
  ∀ (c : Cond) (s : State),
    (∀ ignored : BitVec 25, ∃ w : Word, w.toNat = condCode c * 2 ^ 28 + 4 * 2 ^ 25 + ignored.toNat ∧
      decodeWord w = .und100 c ignored ∧ (decodeWord w).class = .undefined ∧
      (s.passes c = true → exec (.und100 c ignored) s = .fault (.undefinedInstruction s.fetchAddr w)) ∧
      (s.passes c = false → ∃ t : State, exec (.und100 c ignored) s = .next t ∧
        OnlyPcChanges s t (s.getAddress 15 + 4#32))) ∧
    (∀ ignored : BitVec 26, ∃ w : Word, w.toNat = condCode c * 2 ^ 28 + 3 * 2 ^ 26 + ignored.toNat ∧
      decodeWord w = .und11x c ignored ∧ (decodeWord w).class = .undefined ∧
      (s.passes c = true → exec (.und11x c ignored) s = .fault (.undefinedInstruction s.fetchAddr w)) ∧
      (s.passes c = false → ∃ t : State, exec (.und11x c ignored) s = .next t ∧
        OnlyPcChanges s t (s.getAddress 15 + 4#32)))

/-- A fault changes nothing and is not remembered: every further run from the state ends with the same fault in the same state
(60_exceptions.md section 1; D23, log 17). -/
def Obligations.FaultLeavesTheStateAndRepeats : Prop :=
  ∀ (s : State) (n : Nat), (decodeWord s.fetchWord).class = .undefined → s.passes (decodeWord s.fetchWord).cond = true →
    s.run (n + 1) = (s, some (.undefinedInstruction s.fetchAddr s.fetchWord))

/-! ### Branches -/

/-- B writes the PC and nothing else: the next instruction is at `(F + 8 + 4*imm24) mod 2^26` (41_branch.md section 1); that the
write alone makes the step add 8 is the spec's decision D2 (log 5); where the target wraps, the rule is followed against a row of
vector T6 (log 26). -/
def Obligations.BranchGoesToItsTarget : Prop :=
  ∀ (c : Cond) (imm24 : Nat) (s : State), s.passes c = true →
    ∃ t : State, exec (.b c imm24) s = .next t ∧
      OnlyPcChanges s t (s.getAddress 15 + BitVec.ofNat 32 (4 * imm24) + 8#32) ∧
      t.fetchAddr.toNat = (s.fetchAddr.toNat + 8 + 4 * imm24) % 2 ^ 26

/-- BL also writes the fetch address plus 8 to the R14 of the current mode, without flags or mode (41_branch.md section 1; D7,
log 8; D2, log 5); where the target wraps, the rule is followed against a row of vector T6 (log 26). -/
def Obligations.BranchWithLinkLinksAndGoes : Prop :=
  ∀ (c : Cond) (imm24 : Nat) (s : State), s.passes c = true →
    ∃ t : State, exec (.bl c imm24) s = .next t ∧
      t.get 14 = (s.fetchAddr + 8#32) &&& 0x03FFFFFC#32 ∧
      (∀ k : Fin 27, k ≠ 15 → k ≠ phys s.mode 14 → t.slot k = s.slot k) ∧
      t.slot 15 = r15With (s.slot 15) (s.getAddress 15 + BitVec.ofNat 32 (4 * imm24) + 8#32) ∧
      SameMemory s t ∧
      t.fetchAddr.toNat = (s.fetchAddr.toNat + 8 + 4 * imm24) % 2 ^ 26

/-- Backward branches work: B and BL go where a sign-extended 24-bit word offset would take them (41_branch.md section 2, the
spec's derivation; C5 of 90_conflicts.md; D2, log 5); where the target wraps, the rule is followed against a row of vector T6
(log 26). -/
def Obligations.BranchOffsetActsAsSigned : Prop :=
  ∀ (c : Cond) (imm24 : BitVec 24) (s : State), s.passes c = true →
    (∃ t : State, exec (.b c imm24.toNat) s = .next t ∧
      t.fetchAddr = (s.fetchAddr + 8#32 + imm24.signExtend 32 * 4#32) &&& 0x03FFFFFC#32) ∧
    (∃ t : State, exec (.bl c imm24.toNat) s = .next t ∧
      t.fetchAddr = (s.fetchAddr + 8#32 + imm24.signExtend 32 * 4#32) &&& 0x03FFFFFC#32)

/-- `B .` (word `0xEAFFFFFE`) is a fixed point of the step, for ever (41_branch.md section 2, the spec's derivation). -/
def Obligations.BranchToSelfSpins : Prop :=
  ∀ s : State, s.fetchWord = 0xEAFFFFFE#32 → step s = .next s ∧ ∀ n : Nat, s.run n = (s, none)

/-- The target the trace line of a branch shows is the next fetch address when the branch executes (30_encoding.md section 8;
D2, log 5). The trace as a function beside the step is the model's choice (log 20); where the target wraps, the rule is followed
against a row of vector T6 (log 26). -/
def Obligations.TraceShowsTheBranchTarget : Prop :=
  ∀ (c : Cond) (imm24 : Nat) (s : State), s.passes c = true →
    (∃ (t : State) (target : Word), disassemble s.fetchAddr (.b c imm24) = .branch false c target ∧
      exec (.b c imm24) s = .next t ∧ t.fetchAddr = target) ∧
    (∃ (t : State) (target : Word), disassemble s.fetchAddr (.bl c imm24) = .branch true c target ∧
      exec (.bl c imm24) s = .next t ∧ t.fetchAddr = target)

/-! ### Loads and stores -/

/-- LDR in both offset forms: the loaded word, the write-back, the PC, and the frame (42_load_store.md sections 1 to 4). The
order of transfer and write-back (D21), the paths (D20, D22; log 16), the write event (D2, log 5) and the register-offset field
(D18, log 14) are the spec's decisions. -/
def Obligations.LoadWordCompletes : Prop :=
  ∀ (c : Cond) (ix : Indexing) (rn rd : Reg) (s : State), s.passes c = true →
    (∀ imm12 : Nat, LoadCompletes (.ldrImm c ix rn rd imm12) ix rn rd (BitVec.ofNat 32 imm12) s.loadWord s) ∧
    (∀ sh : ShiftedReg, LoadCompletes (.ldrReg c ix rn rd sh) ix rn rd
      (shiftValue sh.stype (s.getAddress sh.rm) sh.amount) s.loadWord s)

/-- LDRB in both offset forms: the loaded byte, zero-extended (D17, log 13), and the rest as for LDR (same decisions). -/
def Obligations.LoadByteCompletes : Prop :=
  ∀ (c : Cond) (ix : Indexing) (rn rd : Reg) (s : State), s.passes c = true →
    (∀ imm12 : Nat, LoadCompletes (.ldrbImm c ix rn rd imm12) ix rn rd (BitVec.ofNat 32 imm12)
      (fun ea => BitVec.ofNat 32 (s.loadByte ea).toNat) s) ∧
    (∀ sh : ShiftedReg, LoadCompletes (.ldrbReg c ix rn rd sh) ix rn rd
      (shiftValue sh.stype (s.getAddress sh.rm) sh.amount) (fun ea => BitVec.ofNat 32 (s.loadByte ea).toNat) s)

/-- STR in both offset forms: the stored word, the frame of memory and registers, the write-back, the PC (42_load_store.md
sections 1 to 4; decisions D2, D18, D20, D21, D22: logs 5, 14, 16). -/
def Obligations.StoreWordCompletes : Prop :=
  ∀ (c : Cond) (ix : Indexing) (rn rd : Reg) (s : State), s.passes c = true →
    (∀ imm12 : Nat, StoreCompletes (.strImm c ix rn rd imm12) ix rn (BitVec.ofNat 32 imm12)
      (fun _ => s.getAddress rd) s) ∧
    (∀ sh : ShiftedReg, StoreCompletes (.strReg c ix rn rd sh) ix rn
      (shiftValue sh.stype (s.getAddress sh.rm) sh.amount) (fun _ => s.getAddress rd) s)

/-- STRB in both offset forms: the whole word is replaced by the byte in its lane with zeros elsewhere (D16, log 12), and the rest
as for STR (same decisions). -/
def Obligations.StoreByteCompletes : Prop :=
  ∀ (c : Cond) (ix : Indexing) (rn rd : Reg) (s : State), s.passes c = true →
    (∀ imm12 : Nat, StoreCompletes (.strbImm c ix rn rd imm12) ix rn (BitVec.ofNat 32 imm12)
      (fun ea => (s.getAddress rd &&& 0xFF#32) <<< (8 * (ea.toNat % 4))) s) ∧
    (∀ sh : ShiftedReg, StoreCompletes (.strbReg c ix rn rd sh) ix rn
      (shiftValue sh.stype (s.getAddress sh.rm) sh.amount)
      (fun ea => (s.getAddress rd &&& 0xFF#32) <<< (8 * (ea.toNat % 4))) s)

/-- What each shift type computes, as arithmetic (42_load_store.md section 1); that amount 0 is literal is the spec's decision D19
(log 15). -/
def Obligations.ShiftTypesComputeTheirOperation : Prop :=
  ∀ (v : Word) (n : Nat), n < 32 →
    (shiftValue .lsl v n).toNat = v.toNat * 2 ^ n % 2 ^ 32 ∧
    (shiftValue .lsr v n).toNat = v.toNat / 2 ^ n ∧
    (shiftValue .asr v n).toInt = v.toInt / 2 ^ n ∧
    (∀ i : Nat, i < 32 → (shiftValue .ror v n).getLsbD i = v.getLsbD ((i + n) % 32))

/-- The PC reads as the fetch address plus 8, and `LDR Rd, [R15, #k]` reads there plus `k` (70_reset_and_hazards.md section 3). -/
def Obligations.PcRelativeLoadReadsFetchPlusEight : Prop :=
  ∀ (s : State) (c : Cond) (rd : Reg) (k : Nat), s.passes c = true → rd ≠ 15 →
    s.getAddress 15 = (s.fetchAddr + 8#32) &&& 0x03FFFFFC#32 ∧
    ∃ t : State, exec (.ldrImm c ⟨true, true, false⟩ 15 rd k) s = .next t ∧
      t.get rd = s.loadWord (((s.fetchAddr + 8#32) &&& 0x03FFFFFC#32) + BitVec.ofNat 32 k)

/-- The value a transfer writes to R15 is the address of the next instruction, and a write-back to R15 comes last
(42_load_store.md section 4, the spec's derivation). The write event (D2, log 5), the zero-extended byte (D17, log 13), the order
and the paths (D20 to D22, log 16) and the register-offset field (D18, log 14) are the spec's decisions. -/
def Obligations.ValueWrittenToR15IsTheNextFetchAddress : Prop :=
  ∀ (c : Cond) (ix : Indexing) (s : State), s.passes c = true →
    (∀ n : Nat,
      R15DecidesTheNextFetch (fun rn rd => .ldrImm c ix rn rd n) ix (BitVec.ofNat 32 n) (some s.loadWord) s ∧
      R15DecidesTheNextFetch (fun rn rd => .ldrbImm c ix rn rd n) ix (BitVec.ofNat 32 n)
        (some fun ea => (s.loadByte ea).zeroExtend 32) s ∧
      R15DecidesTheNextFetch (fun rn rd => .strImm c ix rn rd n) ix (BitVec.ofNat 32 n) none s ∧
      R15DecidesTheNextFetch (fun rn rd => .strbImm c ix rn rd n) ix (BitVec.ofNat 32 n) none s) ∧
    (∀ sh : ShiftedReg,
      R15DecidesTheNextFetch (fun rn rd => .ldrReg c ix rn rd sh) ix (regOffset s sh) (some s.loadWord) s ∧
      R15DecidesTheNextFetch (fun rn rd => .ldrbReg c ix rn rd sh) ix (regOffset s sh)
        (some fun ea => (s.loadByte ea).zeroExtend 32) s ∧
      R15DecidesTheNextFetch (fun rn rd => .strReg c ix rn rd sh) ix (regOffset s sh) none s ∧
      R15DecidesTheNextFetch (fun rn rd => .strbReg c ix rn rd sh) ix (regOffset s sh) none s)

/-- What a store stores is the instruction the next step runs when the next fetch falls on it: in both offset forms, for words and
bytes, with the next fetch in sequence or at a base written back to R15 (20_memory.md section 5, the spec's derivation; the write
event D2, log 5; the zeros beside a stored byte D16, log 12; D18, log 14; D20 to D22, log 16). -/
def Obligations.StoredWordIsFetchedByTheNextStep : Prop :=
  ∀ (c : Cond) (ix : Indexing) (rn rd : Reg) (s : State), s.passes c = true →
    (∀ imm12 : Nat,
      StoredWordIsRun (.strImm c ix rn rd imm12) ix rn (BitVec.ofNat 32 imm12) (fun _ => s.getAddress rd) s ∧
      StoredWordIsRun (.strbImm c ix rn rd imm12) ix rn (BitVec.ofNat 32 imm12)
        (fun ea => (s.getAddress rd &&& 0xFF#32) <<< (8 * (ea.toNat % 4))) s) ∧
    (∀ sh : ShiftedReg,
      StoredWordIsRun (.strReg c ix rn rd sh) ix rn (shiftValue sh.stype (s.getAddress sh.rm) sh.amount)
        (fun _ => s.getAddress rd) s ∧
      StoredWordIsRun (.strbReg c ix rn rd sh) ix rn (shiftValue sh.stype (s.getAddress sh.rm) sh.amount)
        (fun ea => (s.getAddress rd &&& 0xFF#32) <<< (8 * (ea.toNat % 4))) s)

/-! ### The whole machine -/

/-- Every instruction of a class other than Undefined completes from every state, whether or not its condition passes
(40_step_cycle.md section 4, 60_exceptions.md section 1). -/
def Obligations.DefinedInstructionsNeverStop : Prop :=
  ∀ (i : Instr) (s : State), i.class ≠ .undefined → ∃ t : State, exec i s = .next t

/-- No step changes a flag, bits 27:26, the mode, `rom_low` or the ROM image (10_state.md sections 3 and 4). That no
PC arithmetic carries into bits 27:26 and up (D3, log 7), that bits 27:26 are storage (D5, log 6), that a load into R15 takes only
the address bits (D22, log 16) and that nothing inside the block changes `rom_low` (D15, log 11) are the spec's decisions. -/
def Obligations.NoStepChangesStatusOrMap : Prop :=
  ∀ s t : State, step s = .next t →
    t.slot 15 &&& 0xFC000003#32 = s.slot 15 &&& 0xFC000003#32 ∧ t.mode = s.mode ∧
    (∀ c : Cond, t.passes c = s.passes c) ∧ t.romLow = s.romLow ∧ t.romImage = s.romImage

/-- A step writes only slots its mode shows (42_load_store.md section 5). -/
def Obligations.NoStepWritesAHiddenSlot : Prop :=
  ∀ s t : State, step s = .next t → HiddenSlotsKept s t

/-- Only an executed STR or STRB changes memory. -/
def Obligations.OnlyExecutedStoresChangeMemory : Prop :=
  ∀ s t : State, step s = .next t →
    (s.passes (decodeWord s.fetchWord).cond = false ∨
      ((decodeWord s.fetchWord).row ≠ .strImm ∧ (decodeWord s.fetchWord).row ≠ .strReg ∧
        (decodeWord s.fetchWord).row ≠ .strbImm ∧ (decodeWord s.fetchWord).row ≠ .strbReg)) →
    SameMemory s t

/-- RAM keeps its canonical form in every step, from every state that has it (log 25: the form is the model's own). -/
def Obligations.StepKeepsTheCanonicalMemory : Prop :=
  ∀ s t : State, s.Inv → step s = .next t → t.Inv

/-- RAM has its canonical form in every state the core can be in, host operations between steps included (log 25, log 18). -/
def Obligations.ReachableStatesHaveCanonicalMemory : Prop :=
  ∀ s : State, Reachable s → s.Inv

/-- Construction gives a canonical RAM, `State.reset` among its results (log 25). -/
def Obligations.ConstructionHasCanonicalMemory : Prop :=
  State.reset.Inv ∧ ∀ image : List Byte, (State.construct image).Inv

/-- Only a generic write of R15 changes the mode or a flag between steps (60_exceptions.md section 5, the spec's derivation;
host access is its decision D26, log 18). -/
def Obligations.OnlyAGenericWriteOfR15ChangesTheStatus : Prop :=
  ∀ (s : State) (a : HostAction), (∀ v : Word, a ≠ .setRegister 15 v) →
    (s.hostAction a).slot 15 &&& 0xFC000003#32 = s.slot 15 &&& 0xFC000003#32 ∧ (s.hostAction a).mode = s.mode

/-- A run is steps and nothing else: no step leaves the state, one more step is `step` of where the run is, and it ends with a fault
exactly when a shorter run reached the state in which `step` is that fault; so a run continues from where a shorter run ended, and
a fault ends it (40_step_cycle.md section 7; the bound on the number of steps is the model's, log 22; D23, log 17). -/
def Obligations.RunsCompose : Prop :=
  ∀ s : State,
    s.run 0 = (s, none) ∧
    (∀ (n : Nat) (t : State), s.run (n + 1) = (t, none) ↔ ∃ u : State, s.run n = (u, none) ∧ step u = .next t) ∧
    (∀ (n : Nat) (t : State) (f : Fault),
      s.run n = (t, some f) ↔ ∃ m : Nat, m < n ∧ s.run m = (t, none) ∧ step t = .fault f) ∧
    (∀ m n : Nat,
      s.run (m + n) =
        match s.run m with
        | (t, none) => t.run n
        | (t, some f) => (t, some f))

/-! ### Reset -/

/-- What construction leaves: PC 8, mode User, flags clear, `rom_low` set, the image as supplied. The reset vector 0 (D8, log 4),
the zero slots (D9, log 2) and the zero RAM (D10, log 3) are the spec's decisions. -/
def Obligations.ConstructionState : Prop :=
  ∀ image : List Byte, ∃ s : State, s = State.construct image ∧
    s.slot 15 = 0x00000008#32 ∧ s.mode = .user ∧ s.getAddress 15 = 8#32 ∧ s.fetchAddr = 0#32 ∧
    (∀ k : Fin 27, k ≠ 15 → s.slot k = 0#32) ∧ (∀ o : Nat, Memory.read s.ram o = 0#8) ∧
    s.romLow = true ∧ s.romImage = image ∧
    (∀ c : Cond, s.passes c = true ↔ c ∈ [Cond.ne, .cc, .pl, .vc, .ls, .ge, .gt, .al])

/-- The first step runs the first four bytes of the ROM image, least significant first (70_reset_and_hazards.md section 1). The
reset vector (D8, log 4), the low-mapped image read at the address itself (D12, log 10) and the zeros a shorter image's missing
bytes read as (D14, log 10) are the spec's decisions. -/
def Obligations.FirstStepRunsTheStartOfTheImage : Prop :=
  ∀ (image : List Byte) (w : Word), w.toNat = leNumber (fun i => image.getD i 0) 0 →
    step (State.construct image) = exec (decodeWord w) (State.construct image)

/-! ### Condition codes and the host's execute -/

/-- R94, R104: the condition of a word is the one its bits 31:28 number. -/
def Obligations.ConditionCodesDecode : Prop :=
  ∀ (w : Word) (c : Cond), (decodeWord w).cond = c ↔ w.toNat / 2 ^ 28 = condCode c

/-- The host's execute of a word between steps is what a step does when the condition passes, without the condition test and the PC
advance; the advance is 8 exactly when the execute operation wrote R15 (00_scope.md section 3, 40_step_cycle.md sections 4 and 5;
D26, log 18; D2, log 5). That an Undefined word, which has no execution unit, changes nothing is the model's choice (log 18). -/
def Obligations.HostExecutesWithoutTestOrAdvance : Prop :=
  ∀ (s : State) (w : Word),
    ((decodeWord w).class = .undefined → s.hostAction (.execute w) = s) ∧
    ((decodeWord w).class ≠ .undefined → s.passes (decodeWord w).cond = true →
      ∃ k : Word, (WritesR15 (decodeWord w) → k = 8#32) ∧ (¬ WritesR15 (decodeWord w) → k = 4#32) ∧
        exec (decodeWord w) s = .next ((s.hostAction (.execute w)).setAddress 15
          ((s.hostAction (.execute w)).getAddress 15 + k))) ∧
    (∀ w' : Word, w &&& 0x0FFFFFFF#32 = w' &&& 0x0FFFFFFF#32 → s.hostAction (.execute w) = s.hostAction (.execute w'))
end

