-- ==== Sys2Proof/Laws/Bits.lean ====
section
/-! SUPPORT. The two masks of R15 and of addresses, as facts about bits and about numbers. -/

namespace Sys2Proof

theorem Config.addrMask_bit (i : Nat) : Config.addrMask.getLsbD i = (decide (2 ≤ i) && decide (i < 26)) := by
  by_cases h : i < 32
  · have : ∀ j : Fin 32, Config.addrMask.getLsbD j = (decide (2 ≤ j.val) && decide (j.val < 26)) := by decide
    exact this ⟨i, h⟩
  · rw [BitVec.getLsbD_of_ge _ _ (by omega)]
    simp; omega

theorem Config.statusMask_bit (i : Nat) :
    Config.statusMask.getLsbD i = (decide (i < 32) && !(decide (2 ≤ i) && decide (i < 26))) := by
  by_cases h : i < 32
  · have : ∀ j : Fin 32, Config.statusMask.getLsbD j = (decide (j.val < 32) && !(decide (2 ≤ j.val) && decide (j.val < 26))) := by
      decide
    exact this ⟨i, h⟩
  · rw [BitVec.getLsbD_of_ge _ _ (by omega)]
    simp [h]

theorem Config.branchMask_bit (i : Nat) : Config.branchMask.getLsbD i = decide (i < 26) := by
  by_cases h : i < 32
  · have : ∀ j : Fin 32, Config.branchMask.getLsbD j = decide (j.val < 26) := by decide
    exact this ⟨i, h⟩
  · rw [BitVec.getLsbD_of_ge _ _ (by omega)]
    simp; omega

/-- The value R15 takes when its address bits are written (10_state.md R28). -/
def splicePc (packed v : Word) : Word := (packed &&& Config.statusMask) ||| (v &&& Config.addrMask)

theorem splicePc_bit (packed v : Word) (i : Nat) :
    (splicePc packed v).getLsbD i = if 2 ≤ i ∧ i < 26 then v.getLsbD i else packed.getLsbD i := by
  simp only [splicePc, BitVec.getLsbD_or, BitVec.getLsbD_and, Config.addrMask_bit, Config.statusMask_bit]
  rw [← Bool.decide_and]
  by_cases h : 2 ≤ i ∧ i < 26
  · simp [h]
  · by_cases h3 : i < 32
    · simp [h, h3]
    · simp [h, h3, BitVec.getLsbD_of_ge packed i (by omega)]

/-- The address bits of R15 after an address-only write (R28). -/
@[simp] theorem splicePc_addr (packed v : Word) : splicePc packed v &&& Config.addrMask = v &&& Config.addrMask := by
  apply BitVec.eq_of_getLsbD_eq
  intro i _
  simp only [BitVec.getLsbD_and, splicePc_bit, Config.addrMask_bit]
  by_cases h1 : 2 ≤ i <;> by_cases h2 : i < 26 <;> simp [h1, h2]

/-- The other bits of R15 after an address-only write (R28). -/
@[simp] theorem splicePc_status (packed v : Word) : splicePc packed v &&& Config.statusMask = packed &&& Config.statusMask := by
  apply BitVec.eq_of_getLsbD_eq
  intro i hi
  simp only [BitVec.getLsbD_and, splicePc_bit, Config.statusMask_bit]
  by_cases h1 : 2 ≤ i <;> by_cases h2 : i < 26 <;> simp [h1, h2]

@[simp] theorem addrMask_idem (v : Word) : v &&& Config.addrMask &&& Config.addrMask = v &&& Config.addrMask := by
  rw [BitVec.and_assoc, BitVec.and_self]

/-- A second address-only write replaces the first. -/
@[simp] theorem splicePc_splicePc (packed u v : Word) : splicePc (splicePc packed u) v = splicePc packed v := by
  simp only [splicePc] at *
  rw [show ((packed &&& Config.statusMask) ||| (u &&& Config.addrMask)) &&& Config.statusMask = packed &&& Config.statusMask
    from splicePc_status packed u]

/-- Writing only depends on the address bits of the value. -/
@[simp] theorem splicePc_masked (packed v : Word) : splicePc packed (v &&& Config.addrMask) = splicePc packed v := by
  simp [splicePc]

/-- Writing R15 with the address bits it holds changes nothing. -/
theorem splicePc_self (packed : Word) : splicePc packed packed = packed := by
  apply BitVec.eq_of_getLsbD_eq
  intro i _
  simp [splicePc_bit]

/-- An address-only write keeps the mode (R28). -/
@[simp] theorem Machine.modeOf_splicePc (packed v : Word) : Machine.modeOf (splicePc packed v) = Machine.modeOf packed := by
  have : (splicePc packed v).extractLsb' 0 2 = packed.extractLsb' 0 2 := by
    apply BitVec.eq_of_getLsbD_eq
    intro i hi
    have : ¬ 2 ≤ 0 + i := by omega
    simp only [BitVec.getLsbD_extractLsb', splicePc_bit, this, false_and, if_false]
  simp only [Machine.modeOf, this]

/-- The reduced address as a number: the low 26 bits with bits 1:0 cleared (20_memory.md R51). -/
theorem toNat_addrMask (v : Word) : (v &&& Config.addrMask).toNat = 4 * (v.toNat / 4 % 2 ^ 24) := by
  apply Nat.eq_of_testBit_eq
  intro i
  rw [BitVec.testBit_toNat, BitVec.getLsbD_and, Config.addrMask_bit, Nat.mul_comm, show (4 : Nat) = 2 ^ 2 from rfl,
    Nat.testBit_mul_two_pow, Nat.testBit_mod_two_pow, Nat.testBit_div_two_pow]
  by_cases h : 2 ≤ i
  · have e : i - 2 + 2 = i := by omega
    have e' : (i - 2 < 24) = (i < 26) := by simp; omega
    simp [h, e, e', BitVec.getLsbD, Bool.and_comm]
  · simp [h]

/-- The status bits of R15 as a number modulo 4: the mode bits. -/
theorem addrMask_toNat_lt (v : Word) : (v &&& Config.addrMask).toNat < 2 ^ 26 := by
  rw [toNat_addrMask]; omega

/-- Only the address bits of a summand matter to the address bits of a sum with a word-aligned second summand. -/
theorem addrMask_add (v k : Word) (hk : k.toNat % 4 = 0) :
    ((v &&& Config.addrMask) + k) &&& Config.addrMask = (v + k) &&& Config.addrMask := by
  apply BitVec.eq_of_toNat_eq
  rw [toNat_addrMask, toNat_addrMask, BitVec.toNat_add, BitVec.toNat_add, toNat_addrMask]
  have := v.isLt
  omega

theorem addrMask_sub (v k : Word) (hk : k.toNat % 4 = 0) :
    ((v &&& Config.addrMask) - k) &&& Config.addrMask = (v - k) &&& Config.addrMask := by
  apply BitVec.eq_of_toNat_eq
  rw [toNat_addrMask, toNat_addrMask, BitVec.toNat_sub, BitVec.toNat_sub, toNat_addrMask]
  have := v.isLt
  have := k.isLt
  omega

end Sys2Proof
end

