-- ==== Sys2Proof/Laws/Encoding.lean ====
section
/-! SUPPORT. Field codes and the fields of an encoded word (30_encoding.md rules R84 to R97). -/

namespace Sys2Proof

@[simp] theorem Cond.ofBits_toBits (c : Cond) : Cond.ofBits c.toBits = c := by cases c <;> rfl

@[simp] theorem Cond.toBits_ofBits : ∀ b : BitVec 4, (Cond.ofBits b).toBits = b := by decide

@[simp] theorem ShiftType.ofBits_toBits (t : ShiftType) : ShiftType.ofBits t.toBits = t := by cases t <;> rfl

@[simp] theorem ShiftType.toBits_ofBits : ∀ b : BitVec 2, (ShiftType.ofBits b).toBits = b := by decide

@[simp] theorem regOfBits_regBits (r : Reg) : regOfBits (regBits r) = r := rfl

@[simp] theorem regBits_regOfBits (b : BitVec 4) : regBits (regOfBits b) = b := rfl

/-- A concatenation as a number. -/
theorem toNat_append_add {n m : Nat} (x : BitVec n) (y : BitVec m) : (x ++ y).toNat = x.toNat * 2 ^ m + y.toNat := by
  rw [BitVec.toNat_append, ← Nat.shiftLeft_add_eq_or_of_lt y.isLt, Nat.shiftLeft_eq]

/-- A word is determined by its bits, checked one by one. -/
theorem word_eq_of_bits {v w : Word} (h : ∀ i : Fin 32, v.getLsbD i = w.getLsbD i) : v = w :=
  BitVec.eq_of_getLsbD_eq fun i hi => h ⟨i, hi⟩

/-! ### The fields of a Branch word (R84) -/

theorem encodeBranch_link (c : Cond) (link : Bool) (n : Nat) : (encodeBranch c link n).getLsbD 24 = link := by
  simp only [encodeBranch, BitVec.getLsbD_append, Nat.reduceLT, Nat.reduceSub, if_true, if_false]
  simp

theorem encodeBranch_class (c : Cond) (link : Bool) (n : Nat) : (encodeBranch c link n).extractLsb' 25 3 = 0b101#3 := by
  simp (disch := decide) only [encodeBranch, BitVec.extractLsb'_append_eq_of_le, BitVec.extractLsb'_append_eq_of_add_le,
    Nat.reduceSub, BitVec.extractLsb'_eq_self]

theorem encodeBranch_cond (c : Cond) (link : Bool) (n : Nat) : condField (encodeBranch c link n) = c := by
  simp (disch := decide) only [condField, encodeBranch, BitVec.extractLsb'_append_eq_of_le,
    Nat.reduceSub, BitVec.extractLsb'_eq_self]
  simp

theorem encodeBranch_imm24 (c : Cond) (link : Bool) (n : Nat) :
    (encodeBranch c link n).extractLsb' 0 24 = BitVec.ofNat 24 n := by
  simp (disch := decide) only [encodeBranch, BitVec.extractLsb'_append_eq_of_add_le,
    BitVec.extractLsb'_eq_self]

/-! ### The fields of a Load/Store word (R86) -/

section transferFields

variable (c : Cond) (regForm byte load : Bool) (ix : Indexing) (rn rd : Reg) (off : BitVec 12)

theorem encodeTransfer_class :
    (encodeTransfer c regForm byte load ix rn rd off).extractLsb' 26 2 = 0b01#2 := by
  simp (disch := decide) only [encodeTransfer, BitVec.extractLsb'_append_eq_of_le, BitVec.extractLsb'_append_eq_of_add_le,
    Nat.reduceSub, BitVec.extractLsb'_eq_self]

theorem encodeTransfer_cond : condField (encodeTransfer c regForm byte load ix rn rd off) = c := by
  simp (disch := decide) only [condField, encodeTransfer, BitVec.extractLsb'_append_eq_of_le,
    Nat.reduceSub, BitVec.extractLsb'_eq_self]
  simp

theorem encodeTransfer_regForm : (encodeTransfer c regForm byte load ix rn rd off).getLsbD 25 = regForm := by
  simp only [encodeTransfer, BitVec.getLsbD_append, Nat.reduceLT, Nat.reduceSub, if_true, if_false]
  simp

theorem encodeTransfer_byte : (encodeTransfer c regForm byte load ix rn rd off).getLsbD 22 = byte := by
  simp only [encodeTransfer, BitVec.getLsbD_append, Nat.reduceLT, Nat.reduceSub, if_true, if_false]
  simp

theorem encodeTransfer_load : (encodeTransfer c regForm byte load ix rn rd off).getLsbD 20 = load := by
  simp only [encodeTransfer, BitVec.getLsbD_append, Nat.reduceLT, Nat.reduceSub, if_true, if_false]
  simp

theorem encodeTransfer_indexing : indexingField (encodeTransfer c regForm byte load ix rn rd off) = ix := by
  simp only [indexingField, encodeTransfer, BitVec.getLsbD_append, Nat.reduceLT, Nat.reduceSub, if_true, if_false]
  simp

theorem encodeTransfer_rn : rnField (encodeTransfer c regForm byte load ix rn rd off) = rn := by
  simp (disch := decide) only [rnField, encodeTransfer, BitVec.extractLsb'_append_eq_of_le, BitVec.extractLsb'_append_eq_of_add_le,
    Nat.reduceSub, BitVec.extractLsb'_eq_self]
  simp

theorem encodeTransfer_rd : rdField (encodeTransfer c regForm byte load ix rn rd off) = rd := by
  simp (disch := decide) only [rdField, encodeTransfer, BitVec.extractLsb'_append_eq_of_le, BitVec.extractLsb'_append_eq_of_add_le,
    Nat.reduceSub, BitVec.extractLsb'_eq_self]
  simp

theorem encodeTransfer_off : (encodeTransfer c regForm byte load ix rn rd off).extractLsb' 0 12 = off := by
  simp (disch := decide) only [encodeTransfer, BitVec.extractLsb'_append_eq_of_add_le,
    BitVec.extractLsb'_eq_self]

end transferFields

/-! ### The words of the other classes (R90, R91) -/

theorem encodeStub_fields (c : Cond) (k : BitVec 2) (ignored : BitVec 26) :
    (c.toBits ++ k ++ ignored).extractLsb' 28 4 = c.toBits ∧ (c.toBits ++ k ++ ignored).extractLsb' 26 2 = k ∧
      (c.toBits ++ k ++ ignored).extractLsb' 0 26 = ignored := by
  simp (disch := decide) only [BitVec.extractLsb'_append_eq_of_le, BitVec.extractLsb'_append_eq_of_add_le,
    Nat.reduceSub, BitVec.extractLsb'_eq_self, and_self]

theorem encodeUnd100_fields (c : Cond) (ignored : BitVec 25) :
    (c.toBits ++ 0b100#3 ++ ignored).extractLsb' 28 4 = c.toBits ∧
      (c.toBits ++ 0b100#3 ++ ignored).extractLsb' 25 3 = 0b100#3 ∧
      (c.toBits ++ 0b100#3 ++ ignored).extractLsb' 0 25 = ignored := by
  simp (disch := decide) only [BitVec.extractLsb'_append_eq_of_le, BitVec.extractLsb'_append_eq_of_add_le,
    Nat.reduceSub, BitVec.extractLsb'_eq_self, and_self]

/-! ### The class by bits 27:25 (R83) -/

theorem and_mask_27_25 (w : Word) : w &&& 0x0E000000#32 = (w.extractLsb' 25 3).zeroExtend 32 <<< 25 := by
  apply word_eq_of_bits
  intro i
  fin_cases i <;> simp [BitVec.getElem_shiftLeft]

theorem and_mask_27_26 (w : Word) : w &&& 0x0C000000#32 = ((w.extractLsb' 25 3) &&& 6#3).zeroExtend 32 <<< 25 := by
  apply word_eq_of_bits
  intro i
  fin_cases i <;> simp [BitVec.getElem_shiftLeft]

/-- The class of a word is the class of its bits 27:25. -/
theorem classify_bits (w : Word) :
    classify w =
      if w.getLsbD 27 then (if w.getLsbD 26 then .undefined else if w.getLsbD 25 then .branch else .undefined)
      else (if w.getLsbD 26 then .loadStore else .dataProcessing) := by
  have key : ∀ b : BitVec 3,
      (if b.zeroExtend 32 <<< 25 = 0x0A000000#32 then InstrClass.branch
        else if (b &&& 6#3).zeroExtend 32 <<< 25 = 0x00000000#32 then .dataProcessing
        else if (b &&& 6#3).zeroExtend 32 <<< 25 = 0x04000000#32 then .loadStore
        else .undefined) =
      if b.getLsbD 2 then (if b.getLsbD 1 then .undefined else if b.getLsbD 0 then .branch else .undefined)
      else (if b.getLsbD 1 then .loadStore else .dataProcessing) := by decide
  have h := key (w.extractLsb' 25 3)
  simp only [← and_mask_27_25, ← and_mask_27_26, BitVec.getLsbD_extractLsb'] at h
  exact h

end Sys2Proof
end

