-- ==== Sys2Proof/Laws/State.lean ====
section
/-! SUPPORT. What each update of State leaves and changes, field by field, so that no later proof unfolds a record update. -/

namespace Sys2Proof.Machine

/-! ### A slot write -/

theorem State.slot_setSlot (s : State) (i k : Fin 27) (v : Word) :
    (s.setSlot i v).slot k = if k = i then v else s.slot k := by
  simp only [State.slot, State.setSlot, Fin.getElem_fin, Vector.getElem_set, Fin.ext_iff, eq_comm]

@[simp] theorem State.slot_setSlot_self (s : State) (i : Fin 27) (v : Word) : (s.setSlot i v).slot i = v := by
  simp [State.slot_setSlot]

theorem State.slot_setSlot_ne (s : State) {i k : Fin 27} (v : Word) (h : k ≠ i) :
    (s.setSlot i v).slot k = s.slot k := by simp [State.slot_setSlot, h]

@[simp] theorem State.setSlot_ram (s : State) (i : Fin 27) (v : Word) : (s.setSlot i v).ram = s.ram := rfl

@[simp] theorem State.setSlot_romLow (s : State) (i : Fin 27) (v : Word) : (s.setSlot i v).romLow = s.romLow := rfl

@[simp] theorem State.setSlot_romImage (s : State) (i : Fin 27) (v : Word) : (s.setSlot i v).romImage = s.romImage := rfl

/-- Two states are equal when their slots, RAM, `rom_low` and ROM image are. -/
theorem State.eq_of_fields {s t : State} (hslot : ∀ k, s.slot k = t.slot k) (hram : s.ram = t.ram)
    (hlow : s.romLow = t.romLow) (hrom : s.romImage = t.romImage) : s = t := by
  obtain ⟨slots, ram, low, rom⟩ := s
  obtain ⟨slots', ram', low', rom'⟩ := t
  have : slots = slots' := by
    apply Vector.ext
    intro i hi
    exact hslot ⟨i, hi⟩
  simp_all

/-- Writing a slot with the value it holds changes nothing. -/
theorem State.setSlot_slot_self (s : State) (i : Fin 27) : s.setSlot i (s.slot i) = s := by
  refine State.eq_of_fields (fun k => ?_) rfl rfl rfl
  by_cases h : k = i <;> simp [State.slot_setSlot, h]

/-! ### A RAM update -/

@[simp] theorem State.slot_withRam (s : State) (m : Memory) (k : Fin 27) :
    State.slot { s with ram := m } k = s.slot k := rfl

@[simp] theorem State.mode_withRam (s : State) (m : Memory) : State.mode { s with ram := m } = s.mode := rfl

/-! ### The host's `rom_low` and ROM image -/

@[simp] theorem State.slot_withRomLow (s : State) (b : Bool) (k : Fin 27) :
    State.slot { s with romLow := b } k = s.slot k := rfl

@[simp] theorem State.slot_withRomImage (s : State) (image : List Byte) (k : Fin 27) :
    State.slot { s with romImage := image } k = s.slot k := rfl

@[simp] theorem State.getAddress_withRomImage (s : State) (image : List Byte) (r : Reg) :
    State.getAddress { s with romImage := image } r = s.getAddress r := rfl

/-! ### Construction -/

@[simp] theorem State.construct_ram (image : List Byte) : (State.construct image).ram = [] := rfl

@[simp] theorem State.construct_romLow (image : List Byte) : (State.construct image).romLow = true := rfl

@[simp] theorem State.construct_romImage (image : List Byte) : (State.construct image).romImage = image := rfl

end Sys2Proof.Machine
end

