-- ==== Sys2Proof/Laws/Registers.lean ====
section
/-! SUPPORT. The register file: what each access says of each slot (10_state.md rules R22 to R28). -/

namespace Sys2Proof.Machine

/-- R15 has slot 15 in every mode, and nothing else has (R22). -/
theorem phys_eq_pc : ∀ (m : Mode) (r : Reg), phys m r = 15 ↔ r = Reg.pc := by
  intro m; cases m <;> decide

@[simp] theorem phys_pc (m : Mode) : phys m Reg.pc = 15 := (phys_eq_pc m Reg.pc).2 rfl

/-- In one mode no two registers share a slot (R23). -/
theorem phys_inj : ∀ (m : Mode) (r r' : Reg), phys m r = phys m r' ↔ r = r' := by
  intro m; cases m <;> decide

/-! ### The address-only write -/

/-- Everything an address-only write does to the slots (R28). -/
theorem State.slot_setAddress (s : State) (r : Reg) (v : Word) (k : Fin 27) :
    (s.setAddress r v).slot k =
      if k = phys s.mode r then (if r = Reg.pc then splicePc (s.slot 15) v else v) else s.slot k := by
  by_cases h : r = Reg.pc
  · simp [State.setAddress, h, State.slot_setSlot, splicePc]
  · simp [State.setAddress, h, State.set, State.slot_setSlot]

@[simp] theorem State.setAddress_ram (s : State) (r : Reg) (v : Word) : (s.setAddress r v).ram = s.ram := by
  unfold State.setAddress State.set; split <;> simp

@[simp] theorem State.setAddress_romLow (s : State) (r : Reg) (v : Word) : (s.setAddress r v).romLow = s.romLow := by
  unfold State.setAddress State.set; split <;> simp

@[simp] theorem State.setAddress_romImage (s : State) (r : Reg) (v : Word) : (s.setAddress r v).romImage = s.romImage := by
  unfold State.setAddress State.set; split <;> simp

/-- R15 after an address-only write of any register. -/
theorem State.slot_pc_setAddress (s : State) (r : Reg) (v : Word) :
    (s.setAddress r v).slot 15 = if r = Reg.pc then splicePc (s.slot 15) v else s.slot 15 := by
  rw [State.slot_setAddress]
  by_cases h : r = Reg.pc
  · simp [h]
  · have : (15 : Fin 27) ≠ phys s.mode r := fun e => h ((phys_eq_pc _ _).1 e.symm)
    simp [h, this]

/-- No address-only write changes the mode (R28). -/
@[simp] theorem State.mode_setAddress (s : State) (r : Reg) (v : Word) : (s.setAddress r v).mode = s.mode := by
  simp only [State.mode, State.slot_pc_setAddress]
  split <;> simp

/-- Slots other than the written one keep their value. -/
theorem State.slot_setAddress_ne (s : State) {r : Reg} {k : Fin 27} (v : Word) (h : k ≠ phys s.mode r) :
    (s.setAddress r v).slot k = s.slot k := by
  rw [State.slot_setAddress, if_neg h]

/-! ### The generic write -/

/-- Everything a generic write does to the slots (R26). -/
theorem State.slot_set (s : State) (r : Reg) (v : Word) (k : Fin 27) :
    (s.set r v).slot k = if k = phys s.mode r then v else s.slot k := by
  simp [State.set, State.slot_setSlot]

@[simp] theorem State.set_ram (s : State) (r : Reg) (v : Word) : (s.set r v).ram = s.ram := rfl

@[simp] theorem State.set_romLow (s : State) (r : Reg) (v : Word) : (s.set r v).romLow = s.romLow := rfl

@[simp] theorem State.set_romImage (s : State) (r : Reg) (v : Word) : (s.set r v).romImage = s.romImage := rfl

/-- A generic write of a register other than R15 leaves R15 alone. -/
theorem State.slot_pc_set (s : State) {r : Reg} (v : Word) (h : r ≠ Reg.pc) : (s.set r v).slot 15 = s.slot 15 := by
  have : (15 : Fin 27) ≠ phys s.mode r := fun e => h ((phys_eq_pc _ _).1 e.symm)
  rw [State.slot_set, if_neg this]

/-- A generic write of a register other than R15 keeps the mode (R26). -/
theorem State.mode_set (s : State) {r : Reg} (v : Word) (h : r ≠ Reg.pc) : (s.set r v).mode = s.mode := by
  simp only [State.mode, State.slot_pc_set s v h]

/-- For a register other than R15 the two paths write alike (R28). -/
theorem State.setAddress_eq_set (s : State) {r : Reg} (v : Word) (h : r ≠ Reg.pc) : s.setAddress r v = s.set r v := by
  simp [State.setAddress, h]

/-! ### Reads -/

/-- The program counter is the masked R15 (R27). -/
theorem State.getAddress_pc (s : State) : s.getAddress Reg.pc = s.slot 15 &&& Config.addrMask := by
  simp [State.getAddress]

theorem State.getAddress_of_ne (s : State) {r : Reg} (h : r ≠ Reg.pc) : s.getAddress r = s.slot (phys s.mode r) := by
  simp [State.getAddress, State.get, h]

/-- The packed R15 (R25). -/
theorem State.get_pc (s : State) : s.get Reg.pc = s.slot 15 := by simp [State.get]

end Sys2Proof.Machine
end

