-- ==== Sys2Proof/Laws/Memory.lean ====
section
/-! SUPPORT. Byte order, RAM, and the memory address decoder (20_memory.md rules R51 to R62). -/

namespace Sys2Proof

/-! ### Byte order (R59) -/

/-- Lane `k` of a word is its bits `8k+7 : 8k` (R59). -/
theorem byteLane_bit (w : Word) (k i : Nat) : (byteLane w k).getLsbD i = (decide (i < 8) && w.getLsbD (8 * k + i)) := by
  simp only [byteLane, BitVec.getLsbD_extractLsb']

theorem wordOfBytes_bit (b0 b1 b2 b3 : Byte) (i : Nat) :
    (wordOfBytes b0 b1 b2 b3).getLsbD i =
      if i < 8 then b0.getLsbD i else if i < 16 then b1.getLsbD (i - 8) else if i < 24 then b2.getLsbD (i - 16)
      else b3.getLsbD (i - 24) := by
  simp only [wordOfBytes, BitVec.getLsbD_append]
  by_cases h0 : i < 8
  · simp [h0]
  · by_cases h1 : i < 16
    · have : i - 8 < 8 := by omega
      simp [h0, h1, this]
    · by_cases h2 : i < 24
      · have a : ¬ i - 8 < 8 := by omega
        have b : i - 8 - 8 < 8 := by omega
        have c : i - 8 - 8 = i - 16 := by omega
        simp [h0, h1, h2, a, c]
        intro hc; omega
      · have a : ¬ i - 8 < 8 := by omega
        have b : ¬ i - 8 - 8 < 8 := by omega
        have c : i - 8 - 8 - 8 = i - 24 := by omega
        simp [h0, h1, h2, a, b, c]

/-- A word is the word of its lanes (R59). -/
@[simp] theorem wordOfBytes_lanes (w : Word) :
    wordOfBytes (byteLane w 0) (byteLane w 1) (byteLane w 2) (byteLane w 3) = w := by
  apply BitVec.eq_of_getLsbD_eq
  intro i hi
  rw [wordOfBytes_bit]
  simp only [byteLane_bit]
  split
  · next h => simp [h]
  · split
    · have : i - 8 < 8 := by omega
      have e : 8 * 1 + (i - 8) = i := by omega
      simp only [this, e, decide_true, Bool.true_and]
    · split
      · have : i - 16 < 8 := by omega
        have e : 8 * 2 + (i - 16) = i := by omega
        simp only [this, e, decide_true, Bool.true_and]
      · have : i - 24 < 8 := by omega
        have e : 8 * 3 + (i - 24) = i := by omega
        simp only [this, e, decide_true, Bool.true_and]

@[simp] theorem byteLane0_wordOfBytes (b0 b1 b2 b3 : Byte) : byteLane (wordOfBytes b0 b1 b2 b3) 0 = b0 := by
  apply BitVec.eq_of_getLsbD_eq
  intro i hi
  rw [byteLane_bit, wordOfBytes_bit]
  simp [hi]

@[simp] theorem byteLane1_wordOfBytes (b0 b1 b2 b3 : Byte) : byteLane (wordOfBytes b0 b1 b2 b3) 1 = b1 := by
  apply BitVec.eq_of_getLsbD_eq
  intro i hi
  rw [byteLane_bit, wordOfBytes_bit, if_neg (by omega), if_pos (by omega)]
  simp [hi]

@[simp] theorem byteLane2_wordOfBytes (b0 b1 b2 b3 : Byte) : byteLane (wordOfBytes b0 b1 b2 b3) 2 = b2 := by
  apply BitVec.eq_of_getLsbD_eq
  intro i hi
  rw [byteLane_bit, wordOfBytes_bit, if_neg (by omega), if_neg (by omega), if_pos (by omega)]
  simp [hi]

@[simp] theorem byteLane3_wordOfBytes (b0 b1 b2 b3 : Byte) : byteLane (wordOfBytes b0 b1 b2 b3) 3 = b3 := by
  apply BitVec.eq_of_getLsbD_eq
  intro i hi
  rw [byteLane_bit, wordOfBytes_bit, if_neg (by omega), if_neg (by omega), if_neg (by omega)]
  simp [hi]

namespace Machine

/-! ### RAM bytes -/

theorem Memory.read_erase (m : Memory) (o j : Nat) :
    Memory.read (Memory.erase m o) j = if j = o then Config.ramFill else Memory.read m j := by
  induction m with
  | nil => simp [Memory.erase, Memory.read]
  | cons e rest ih =>
    obtain ⟨k, b⟩ := e
    simp only [Memory.erase]
    split
    · next h => subst h; rw [ih]; by_cases hj : j = k
                · simp [hj]
                · have : ¬ k = j := fun h => hj h.symm
                  simp [Memory.read, hj, this]
    · next h =>
      simp only [Memory.read]
      by_cases hj : k = j
      · subst hj; simp [h]
      · simp [hj, ih]

theorem Memory.erase_fresh (m : Memory) (o : Nat) : ∀ e ∈ Memory.erase m o, e.1 ≠ o := by
  induction m with
  | nil => simp [Memory.erase]
  | cons e rest ih =>
    obtain ⟨k, b⟩ := e
    simp only [Memory.erase]
    split
    · exact ih
    · next h => intro x hx
                rcases List.mem_cons.1 hx with rfl | hx
                · exact h
                · exact ih x hx

theorem Memory.read_insert {m : Memory} {o : Nat} (v : Byte) (j : Nat) (fresh : ∀ e ∈ m, e.1 ≠ o) :
    Memory.read (Memory.insert m o v) j = if j = o then v else Memory.read m j := by
  induction m with
  | nil => simp [Memory.insert, Memory.read, eq_comm]
  | cons e rest ih =>
    obtain ⟨k, b⟩ := e
    have hk : k ≠ o := fresh (k, b) (by simp)
    simp only [Memory.insert]
    split
    · simp [Memory.read, eq_comm]
    · simp only [Memory.read]
      rw [ih fun e he => fresh e (by simp [he])]
      by_cases hj : k = j
      · subst hj; simp [hk]
      · simp [hj]

/-- A byte write changes exactly the byte at its offset, in any list. -/
theorem Memory.read_write (m : Memory) (o : Nat) (v : Byte) (j : Nat) :
    Memory.read (Memory.write m o v) j = if j = o then v else Memory.read m j := by
  unfold Memory.write
  split
  · next h => rw [Memory.read_erase, h]
  · rw [Memory.read_insert v j (Memory.erase_fresh m o), Memory.read_erase]
    split <;> simp_all

theorem Memory.wfFrom_mono {m : Memory} {lo lo' : Nat} (h : lo' ≤ lo) (hm : Memory.wfFrom lo m = true) :
    Memory.wfFrom lo' m = true := by
  cases m with
  | nil => rfl
  | cons e rest =>
    obtain ⟨k, b⟩ := e
    simp only [Memory.wfFrom, Bool.and_eq_true, decide_eq_true_eq] at *
    exact ⟨⟨⟨by omega, hm.1.1.2⟩, hm.1.2⟩, hm.2⟩

theorem Memory.wfFrom_erase {m : Memory} (lo o : Nat) (hm : Memory.wfFrom lo m = true) :
    Memory.wfFrom lo (Memory.erase m o) = true := by
  induction m generalizing lo with
  | nil => rfl
  | cons e rest ih =>
    obtain ⟨k, b⟩ := e
    simp only [Memory.wfFrom, Bool.and_eq_true, decide_eq_true_eq] at hm
    simp only [Memory.erase]
    split
    · exact Memory.wfFrom_mono (by omega) (ih _ hm.2)
    · simp [Memory.wfFrom, hm, ih _ hm.2]

theorem Memory.wfFrom_insert {m : Memory} {lo o : Nat} {v : Byte} (hlo : lo ≤ o) (ho : o < Config.ramSize)
    (hv : v ≠ Config.ramFill) (fresh : ∀ e ∈ m, e.1 ≠ o) (hm : Memory.wfFrom lo m = true) :
    Memory.wfFrom lo (Memory.insert m o v) = true := by
  induction m generalizing lo with
  | nil => simp [Memory.insert, Memory.wfFrom, hlo, ho, hv]
  | cons e rest ih =>
    obtain ⟨k, b⟩ := e
    have hk : k ≠ o := fresh (k, b) (by simp)
    simp only [Memory.wfFrom, Bool.and_eq_true, decide_eq_true_eq] at hm
    simp only [Memory.insert]
    split
    · next h => simp [Memory.wfFrom, hlo, ho, hv, hm, Nat.succ_le_of_lt h]
    · next h =>
      have := ih (lo := k + 1) (by omega) (fun e he => fresh e (by simp [he])) hm.2
      simp [Memory.wfFrom, hm, this]

/-- A byte write inside the RAM keeps the canonical form. -/
theorem Memory.wf_write {m : Memory} {o : Nat} (v : Byte) (ho : o < Config.ramSize) (hm : Memory.wf m = true) :
    Memory.wf (Memory.write m o v) = true := by
  unfold Memory.wf Memory.write at *
  split
  · exact Memory.wfFrom_erase 0 o hm
  · next h => exact Memory.wfFrom_insert (Nat.zero_le _) ho h (Memory.erase_fresh m o) (Memory.wfFrom_erase 0 o hm)

/-- A word write inside the RAM keeps the canonical form. -/
theorem Memory.wf_writeWord {m : Memory} {o : Nat} (v : Word) (ho : o + 3 < Config.ramSize) (hm : Memory.wf m = true) :
    Memory.wf (Memory.writeWord m o v) = true := by
  unfold Memory.writeWord
  exact Memory.wf_write _ (by omega) (Memory.wf_write _ (by omega) (Memory.wf_write _ (by omega)
    (Memory.wf_write _ (by omega) hm)))

/-- A word write changes exactly the four bytes from its offset on. -/
theorem Memory.read_writeWord (m : Memory) (o : Nat) (v : Word) (j : Nat) :
    Memory.read (Memory.writeWord m o v) j = if o ≤ j ∧ j < o + 4 then byteLane v (j - o) else Memory.read m j := by
  simp only [Memory.writeWord, Memory.read_write]
  by_cases h : o ≤ j ∧ j < o + 4
  · rw [if_pos h]
    obtain ⟨d, rfl⟩ := Nat.exists_eq_add_of_le h.1
    have hd : d = 0 ∨ d = 1 ∨ d = 2 ∨ d = 3 := by omega
    rcases hd with rfl | rfl | rfl | rfl <;> simp
  · rw [if_neg h, if_neg (by omega), if_neg (by omega), if_neg (by omega), if_neg (by omega)]

theorem Memory.readWord_writeWord_same (m : Memory) (o : Nat) (v : Word) :
    Memory.readWord (Memory.writeWord m o v) o = v := by
  simp [Memory.readWord, Memory.read_writeWord]

theorem Memory.readWord_writeWord_other (m : Memory) {o p : Nat} (v : Word) (ho : o % 4 = 0) (hp : p % 4 = 0) (h : p ≠ o) :
    Memory.readWord (Memory.writeWord m o v) p = Memory.readWord m p := by
  simp only [Memory.readWord, Memory.read_writeWord]
  rw [if_neg (by omega), if_neg (by omega), if_neg (by omega), if_neg (by omega)]

/-! ### The address decoder -/

/-- An offset into RAM is word-aligned and inside the RAM (R51, R53). -/
theorem locate_ram {low : Bool} {addr : Word} {o : Nat} (h : locate low addr = .ram o) :
    o % 4 = 0 ∧ o + 3 < Config.ramSize := by
  have aligned : (addr &&& Config.addrMask).toNat % 4 = 0 := by rw [toNat_addrMask]; omega
  have size : Config.ramSize = 0x400000 := rfl
  simp only [locate, ramBacking] at h
  repeat' split at h
  all_goals simp only [Backing.ram.injEq, reduceCtorEq] at h
  all_goals omega

/-- An offset into the ROM through either window is word-aligned (R51, R54). -/
theorem locate_rom {low : Bool} {addr : Word} {o : Nat} (h : locate low addr = .lowMappedRom o ∨ locate low addr = .highRom o) :
    o % 4 = 0 := by
  have aligned : (addr &&& Config.addrMask).toNat % 4 = 0 := by rw [toNat_addrMask]; omega
  simp only [locate, ramBacking] at h
  rcases h with h | h
  all_goals
    repeat' split at h
    all_goals simp only [Backing.lowMappedRom.injEq, Backing.highRom.injEq, reduceCtorEq] at h
    all_goals omega

/-- Region lookup only sees the reduced address (R51). -/
theorem locate_masked (low : Bool) (addr : Word) : locate low (addr &&& Config.addrMask) = locate low addr := by
  simp [locate]

theorem State.ramOffset_eq_some {s : State} {addr : Word} {o : Nat} :
    s.ramOffset addr = some o ↔ s.backing addr = .ram o := by
  unfold State.ramOffset
  split <;> simp_all

/-- A RAM-backed address has a word-aligned offset inside the RAM (R53). -/
theorem State.ramOffset_bounds {s : State} {addr : Word} {o : Nat} (h : s.ramOffset addr = some o) :
    o % 4 = 0 ∧ o + 3 < Config.ramSize :=
  locate_ram (State.ramOffset_eq_some.1 h)

/-- `load_word` at a RAM-backed address reads RAM (R52, R53). -/
theorem State.loadWord_ram {s : State} {addr : Word} {o : Nat} (h : s.ramOffset addr = some o) :
    s.loadWord addr = Memory.readWord s.ram o := by
  simp [State.loadWord, State.ramOffset_eq_some.1 h]

/-- `store_word` does one of two things (R52, R56): it writes the RAM word at a RAM-backed address, or nothing. -/
theorem State.storeWord_cases (s : State) (addr v : Word) :
    (∃ o, s.ramOffset addr = some o ∧ s.storeWord addr v = { s with ram := Memory.writeWord s.ram o v }) ∨
    (s.ramOffset addr = none ∧ s.storeWord addr v = s) := by
  unfold State.storeWord State.ramOffset
  cases s.backing addr <;> simp

@[simp] theorem State.slot_storeWord (s : State) (addr v : Word) (k : Fin 27) : (s.storeWord addr v).slot k = s.slot k := by
  rcases s.storeWord_cases addr v with ⟨o, _, h⟩ | ⟨_, h⟩ <;> simp [h]

@[simp] theorem State.storeWord_romLow (s : State) (addr v : Word) : (s.storeWord addr v).romLow = s.romLow := by
  rcases s.storeWord_cases addr v with ⟨o, _, h⟩ | ⟨_, h⟩ <;> simp [h]

@[simp] theorem State.storeWord_romImage (s : State) (addr v : Word) : (s.storeWord addr v).romImage = s.romImage := by
  rcases s.storeWord_cases addr v with ⟨o, _, h⟩ | ⟨_, h⟩ <;> simp [h]

@[simp] theorem State.mode_storeWord (s : State) (addr v : Word) : (s.storeWord addr v).mode = s.mode := by
  simp [State.mode]

@[simp] theorem State.getAddress_storeWord (s : State) (addr v : Word) (r : Reg) :
    (s.storeWord addr v).getAddress r = s.getAddress r := by
  simp [State.getAddress, State.get]

@[simp] theorem State.backing_storeWord (s : State) (addr v a : Word) : (s.storeWord addr v).backing a = s.backing a := by
  simp [State.backing]

@[simp] theorem State.ramOffset_storeWord (s : State) (addr v a : Word) :
    (s.storeWord addr v).ramOffset a = s.ramOffset a := by
  simp [State.ramOffset]

/-- Read after write for words, at every pair of addresses and through every alias (R56, R65, R70). -/
theorem State.loadWord_storeWord (s : State) (addr v a : Word) :
    (s.storeWord addr v).loadWord a =
      if s.ramOffset addr ≠ none ∧ s.ramOffset a = s.ramOffset addr then v else s.loadWord a := by
  rcases s.storeWord_cases addr v with ⟨o, ho, h⟩ | ⟨hn, h⟩
  · by_cases ha : s.ramOffset a = some o
    · have : (s.storeWord addr v).ramOffset a = some o := by simp [ha]
      rw [State.loadWord_ram this, h]
      simp [ho, ha, Memory.readWord_writeWord_same]
    · rw [if_neg (by simp [ho, ha])]
      have hb : (s.storeWord addr v).backing a = s.backing a := by simp
      unfold State.loadWord
      rw [hb]
      cases e : s.backing a with
      | ram p =>
        have hp : s.ramOffset a = some p := State.ramOffset_eq_some.2 e
        have hne : p ≠ o := fun he => ha (he ▸ hp)
        simp only [h]
        exact Memory.readWord_writeWord_other _ v (State.ramOffset_bounds ho).1 (State.ramOffset_bounds hp).1 hne
      | lowMappedRom p => simp
      | highRom p => simp
      | noRam => rfl
      | io => rfl
      | lowRom => rfl
  · simp [hn, h]

/-- `store_word` keeps the canonical form of RAM. -/
theorem State.wf_storeWord {s : State} (addr v : Word) (h : Memory.wf s.ram = true) :
    Memory.wf (s.storeWord addr v).ram = true := by
  rcases s.storeWord_cases addr v with ⟨o, ho, e⟩ | ⟨_, e⟩
  · rw [e]; exact Memory.wf_writeWord v (State.ramOffset_bounds ho).2 h
  · rw [e]; exact h

/-! ### Loads see only RAM, `rom_low` and the image -/

theorem State.loadWord_congr {s t : State} (hram : s.ram = t.ram) (hlow : s.romLow = t.romLow)
    (hrom : s.romImage = t.romImage) (a : Word) : s.loadWord a = t.loadWord a := by
  simp [State.loadWord, State.backing, hram, hlow, hrom]

@[simp] theorem State.loadWord_setAddress (s : State) (r : Reg) (v a : Word) :
    (s.setAddress r v).loadWord a = s.loadWord a :=
  State.loadWord_congr (by simp) (by simp) (by simp) a

@[simp] theorem State.loadWord_set (s : State) (r : Reg) (v a : Word) : (s.set r v).loadWord a = s.loadWord a :=
  State.loadWord_congr rfl rfl rfl a

@[simp] theorem State.ramOffset_setAddress (s : State) (r : Reg) (v a : Word) :
    (s.setAddress r v).ramOffset a = s.ramOffset a := by
  simp [State.ramOffset, State.backing]

end Machine

end Sys2Proof
end

