-- ==== Sys2Proof/Laws/Step.lean ====
section
/-! SUPPORT. What the step frame, a transfer and a branch do (40_step_cycle.md rules R100 to R109, 42_load_store.md R137). -/

namespace Sys2Proof.Machine

/-! ### The PC advance (R109) -/

/-- The advance a step makes. -/
theorem splicePc_advance (packed k : Word) (hk : k.toNat % 4 = 0) :
    splicePc packed ((packed &&& Config.addrMask) + k) = splicePc packed (packed + k) := by
  rw [← splicePc_masked, addrMask_add _ _ hk, splicePc_masked]

/-- Everything the PC advance does to the slots (R109). -/
theorem InFlight.slot_retire (x : InFlight) (k : Fin 27) :
    x.retire.slot k =
      if k = 15 then splicePc (x.st.slot 15) (x.st.slot 15 + if x.pcWritten then 8#32 else 4#32) else x.st.slot k := by
  unfold InFlight.retire
  rw [State.slot_setAddress, State.getAddress_pc]
  simp only [phys_pc, if_true]
  split
  · rw [splicePc_advance]
    · rfl
    · split <;> rfl
  · rfl

@[simp] theorem InFlight.retire_ram (x : InFlight) : x.retire.ram = x.st.ram := by simp [InFlight.retire]

@[simp] theorem InFlight.retire_romLow (x : InFlight) : x.retire.romLow = x.st.romLow := by simp [InFlight.retire]

@[simp] theorem InFlight.retire_romImage (x : InFlight) : x.retire.romImage = x.st.romImage := by simp [InFlight.retire]

@[simp] theorem InFlight.mode_retire (x : InFlight) : x.retire.mode = x.st.mode := by simp [InFlight.retire]

@[simp] theorem InFlight.loadWord_retire (x : InFlight) (a : Word) : x.retire.loadWord a = x.st.loadWord a := by
  simp [InFlight.retire]

@[simp] theorem InFlight.ramOffset_retire (x : InFlight) (a : Word) : x.retire.ramOffset a = x.st.ramOffset a := by
  simp [InFlight.retire]

/-! ### The fetch address (R101) -/

/-- The fetch address from the packed R15. -/
theorem State.fetchAddr_eq (s : State) : s.fetchAddr = (s.slot 15 - 8#32) &&& Config.addrMask := by
  unfold State.fetchAddr
  rw [State.getAddress_pc, addrMask_sub _ _ rfl]
  rfl

/-- The fetch address only depends on R15. -/
theorem State.fetchAddr_congr {s t : State} (h : s.slot 15 = t.slot 15) : s.fetchAddr = t.fetchAddr := by
  simp [State.fetchAddr_eq, h]

/-! ### The two frames (R106, R107) -/

/-- An instruction that cannot fault always completes. -/
theorem underCondition_next (c : Cond) (body : InFlight → InFlight) (s : State) :
    underCondition c body s = .next (if s.passes c then body (InFlight.start s) else InFlight.start s).retire := rfl

theorem underCondition_pass {c : Cond} {s : State} (body : InFlight → InFlight) (h : s.passes c = true) :
    underCondition c body s = .next (body (InFlight.start s)).retire := by simp [underCondition, h]

theorem underCondition_fail {c : Cond} {s : State} (body : InFlight → InFlight) (h : s.passes c = false) :
    underCondition c body s = .next (InFlight.start s).retire := by simp [underCondition, h]

/-- An Undefined word does one of two things: it raises, or it is skipped (R152). -/
theorem undefinedUnderCondition_cases (c : Cond) (word : Word) (s : State) :
    (s.passes c = true ∧ undefinedUnderCondition c word s = .fault (.undefinedInstruction s.fetchAddr word)) ∨
    (s.passes c = false ∧ undefinedUnderCondition c word s = .next (InFlight.start s).retire) := by
  unfold undefinedUnderCondition raiseUndefined
  cases s.passes c <;> simp

/-! ### The writes of an instruction in flight (R108) -/

@[simp] theorem InFlight.start_st (s : State) : (InFlight.start s).st = s := rfl

@[simp] theorem InFlight.start_pcWritten (s : State) : (InFlight.start s).pcWritten = false := rfl

@[simp] theorem InFlight.setAddress_st (x : InFlight) (r : Reg) (v : Word) :
    (x.setAddress r v).st = x.st.setAddress r v := rfl

@[simp] theorem InFlight.setAddress_pcWritten (x : InFlight) (r : Reg) (v : Word) :
    (x.setAddress r v).pcWritten = (x.pcWritten || r == Reg.pc) := rfl

@[simp] theorem InFlight.set_st (x : InFlight) (r : Reg) (v : Word) : (x.set r v).st = x.st.set r v := rfl

@[simp] theorem InFlight.set_pcWritten (x : InFlight) (r : Reg) (v : Word) :
    (x.set r v).pcWritten = (x.pcWritten || r == Reg.pc) := rfl

@[simp] theorem InFlight.storeWord_st (x : InFlight) (addr v : Word) :
    (x.storeWord addr v).st = x.st.storeWord addr v := rfl

@[simp] theorem InFlight.storeWord_pcWritten (x : InFlight) (addr v : Word) :
    (x.storeWord addr v).pcWritten = x.pcWritten := rfl

@[simp] theorem InFlight.storeByte_st (x : InFlight) (addr : Word) (b : Byte) :
    (x.storeByte addr b).st = x.st.storeWord addr (byteInLane addr b) := rfl

@[simp] theorem InFlight.storeByte_pcWritten (x : InFlight) (addr : Word) (b : Byte) :
    (x.storeByte addr b).pcWritten = x.pcWritten := rfl

/-! ### A transfer (R137) -/

/-- A transfer whose condition passes completes: the access at the effective address, then write-back, then the advance. -/
theorem transfer_pass {c : Cond} {s : State} (ix : Indexing) (rn : Reg) (off : Word) (access : Word → InFlight → InFlight)
    (h : s.passes c = true) :
    underCondition c (transfer ix rn off access) s =
      .next (writeBack ix rn (effectiveAddress ix (s.getAddress rn) (signedOffset ix off)) (signedOffset ix off)
        (access (effectiveAddress ix (s.getAddress rn) (signedOffset ix off)) (InFlight.start s))).retire :=
  underCondition_pass _ h

/-- Both indexings write back base plus signed offset (R136). -/
theorem writeBackValue_eq (ix : Indexing) (base soff : Word) :
    writeBackValue ix (effectiveAddress ix base soff) soff = base + soff := by
  unfold writeBackValue effectiveAddress
  split <;> simp_all

/-- Write-back is one register write or nothing (R136). -/
theorem writeBack_cases (ix : Indexing) (rn : Reg) (ea soff : Word) (x : InFlight) :
    (Indexing.writesBack ix = true ∧ writeBack ix rn ea soff x = x.setAddress rn (writeBackValue ix ea soff)) ∨
    (Indexing.writesBack ix = false ∧ writeBack ix rn ea soff x = x) := by
  unfold writeBack
  cases Indexing.writesBack ix <;> simp

/-! ### A step -/

/-- A step is the execution of the fetched word's instruction (R100). -/
theorem step_eq (s : State) : step s = exec (decodeWord s.fetchWord) s := rfl

end Sys2Proof.Machine
end

