-- ==== Sys2Proof/Laws/Effects.lean ====
section
/-! SUPPORT. What each unit's execution does to the fields of the state: branches (41_branch.md), transfers (42_load_store.md),
and the completion of every arm of `exec`. -/

namespace Sys2Proof.Machine

/-! ### Numbers -/

/-- The mode from the two low bits of R15 as a number (10_state.md R24). -/
theorem modeOf_toNat (w : Word) :
    modeOf w = if w.toNat % 4 = 0 then .user else if w.toNat % 4 = 1 then .fiq else if w.toNat % 4 = 2 then .irq else .svc := by
  have low : (w.extractLsb' 0 2).toNat = w.toNat % 4 := by simp
  have range : w.toNat % 4 = 0 ∨ w.toNat % 4 = 1 ∨ w.toNat % 4 = 2 ∨ w.toNat % 4 = 3 := by omega
  unfold modeOf
  rw [low]
  rcases range with h | h | h | h <;> simp [h]

/-- No slot number is cut off (10_state.md R22). -/
theorem phys_val (m : Mode) (r : Reg) : (phys m r).val = physNumber m r.val := by
  revert r; cases m <;> decide

/-- A word as the number its bytes make (20_memory.md R59). -/
theorem toNat_wordOfBytes (b0 b1 b2 b3 : Byte) :
    (wordOfBytes b0 b1 b2 b3).toNat = b0.toNat + 2 ^ 8 * b1.toNat + 2 ^ 16 * b2.toNat + 2 ^ 24 * b3.toNat := by
  simp only [wordOfBytes, toNat_append_add]; omega

/-- A lane as a number (20_memory.md R57). -/
theorem toNat_byteLane (w : Word) (k : Nat) : (byteLane w k).toNat = w.toNat / 2 ^ (8 * k) % 2 ^ 8 := by
  simp [byteLane, Nat.shiftRight_eq_div_pow]

/-- The lane of an address as a number (20_memory.md R57). -/
theorem laneOf_eq (a : Word) : laneOf a = a.toNat % 4 := by
  have h : (a &&& 3#32).toNat = a.toNat &&& 3 := by simp
  rw [laneOf, h]
  exact Nat.and_two_pow_sub_one_eq_mod a.toNat 2

/-- The region table over the reduced address as a number (20_memory.md R51, R52). -/
theorem locate_toNat (low : Bool) (a : Word) {n : Nat} (h : n = a.toNat / 4 % 2 ^ 24 * 4) :
    locate low a =
      if n < 0x2000000 then (if low then .lowMappedRom n else ramBacking n)
      else if n < 0x3000000 then ramBacking (n - 0x2000000)
      else if n < 0x3400000 then .io
      else if n < 0x3800000 then .lowRom
      else .highRom (n - 0x3800000) := by
  have e : (a &&& Config.addrMask).toNat = n := by rw [toNat_addrMask, h]; omega
  simp only [locate, e]

/-- Word accesses at addresses with the same address bits read the same (20_memory.md R51). -/
theorem State.loadWord_masked (s : State) {a b : Word} (h : a &&& Config.addrMask = b &&& Config.addrMask) :
    s.loadWord a = s.loadWord b := by
  have : s.backing a = s.backing b := by
    rw [State.backing, State.backing, ← locate_masked _ a, ← locate_masked _ b, h]
  simp [State.loadWord, this]

/-- The lanes of the word a byte store stores (20_memory.md R58). -/
theorem byteLane_byteInLane (a : Word) (b : Byte) {k : Nat} (hk : k < 4) :
    byteLane (byteInLane a b) k = if k = laneOf a then b else 0#8 := by
  have hl : laneOf a < 4 := by rw [laneOf_eq]; omega
  apply BitVec.eq_of_getLsbD_eq
  intro i hi
  rw [byteLane_bit, byteInLane]
  simp only [BitVec.truncate_eq_setWidth, BitVec.getLsbD_shiftLeft, BitVec.getLsbD_setWidth, hi, decide_true, Bool.true_and]
  split
  · next h =>
    subst h
    simp only [show 8 * laneOf a + i < 32 by omega, Nat.not_lt.2 (Nat.le_add_right _ _), Nat.add_sub_cancel_left,
      show i < 32 by omega, decide_true, decide_false, Bool.not_false, Bool.true_and]
  · next h =>
    by_cases h1 : 8 * k + i < 8 * laneOf a
    · simp [h1]
    · have : b.getLsbD (8 * k + i - 8 * laneOf a) = false := BitVec.getLsbD_of_ge _ _ (by omega)
      simp [this]

/-! ### R15 -/

theorem branchMask_addr (v : Word) : (v &&& Config.branchMask) &&& Config.addrMask = v &&& Config.addrMask := by
  rw [BitVec.and_assoc]; rfl

/-- The branch target's mask does not matter to R15 (41_branch.md R120). -/
theorem splicePc_branchMask (packed v : Word) : splicePc packed (v &&& Config.branchMask) = splicePc packed v := by
  rw [← splicePc_masked, branchMask_addr, splicePc_masked]

/-- A write of R15 followed by the advance (40_step_cycle.md R109). -/
theorem splicePc_then_advance (packed v k : Word) (hk : k.toNat % 4 = 0) :
    splicePc (splicePc packed v) (splicePc packed v + k) = splicePc packed (v + k) := by
  rw [splicePc_splicePc, ← splicePc_masked, ← addrMask_add _ _ hk, splicePc_addr, addrMask_add _ _ hk, splicePc_masked]

/-- R15 after the advance. -/
theorem InFlight.pc_retire (x : InFlight) :
    x.retire.slot 15 = splicePc (x.st.slot 15) (x.st.slot 15 + (if x.pcWritten then 8#32 else 4#32)) := by
  rw [InFlight.slot_retire, if_pos rfl]

/-- The PC is the fetch address plus 8 (40_step_cycle.md R101). -/
theorem State.getAddress_pc_fetchAddr (s : State) : s.getAddress Reg.pc = (s.fetchAddr + 8#32) &&& Config.addrMask := by
  rw [State.fetchAddr_eq, addrMask_add _ _ (by decide), State.getAddress_pc, BitVec.sub_add_cancel]

/-- Advancing R15 by a multiple of 4 advances the fetch address by it, in the 26-bit space. -/
theorem State.fetchAddr_advance {s t : State} {n : Nat} (hn : n % 4 = 0)
    (h : t.slot 15 = splicePc (s.slot 15) (s.slot 15 + BitVec.ofNat 32 n)) :
    t.fetchAddr.toNat = (s.fetchAddr.toNat + n) % 2 ^ 26 := by
  rw [State.fetchAddr_eq, State.fetchAddr_eq, h, ← addrMask_sub _ _ (by decide), splicePc_addr, addrMask_sub _ _ (by decide),
    toNat_addrMask, toNat_addrMask]
  simp only [BitVec.toNat_sub, BitVec.toNat_add, BitVec.toNat_ofNat]
  have := (s.slot 15).isLt
  omega

/-! ### Branches -/

/-- The branch offset in bytes (30_encoding.md R85). -/
theorem branchOffset_eq (imm24 : Nat) : branchOffset imm24 = BitVec.ofNat 32 (4 * imm24) := by
  apply BitVec.eq_of_toNat_eq
  simp [branchOffset, Nat.shiftLeft_eq]
  omega

/-- R15 after a branch and the advance (41_branch.md R120). -/
theorem pc_branchTo (imm24 : Nat) (x : InFlight) :
    (branchTo imm24 x).retire.slot 15 = splicePc (x.st.slot 15) (x.st.slot 15 + BitVec.ofNat 32 (4 * imm24 + 8)) := by
  rw [InFlight.pc_retire]
  simp only [branchTo, InFlight.setAddress_st, InFlight.setAddress_pcWritten, State.slot_pc_setAddress, if_true,
    beq_self_eq_true, Bool.or_true]
  have h4 : (BitVec.ofNat 32 (4 * imm24 + 8)).toNat % 4 = 0 := by rw [BitVec.toNat_ofNat]; omega
  have sum : BitVec.ofNat 32 (4 * imm24) + 8#32 = BitVec.ofNat 32 (4 * imm24 + 8) := by
    apply BitVec.eq_of_toNat_eq; simp [BitVec.toNat_add]
  rw [splicePc_branchMask, splicePc_then_advance _ _ _ (by decide), State.getAddress_pc, branchOffset_eq, BitVec.add_assoc,
    sum, splicePc_advance _ _ h4]

/-- A branch changes no other slot. -/
theorem slot_branchTo (imm24 : Nat) (x : InFlight) {k : Fin 27} (hk : k ≠ 15) :
    (branchTo imm24 x).retire.slot k = x.st.slot k := by
  rw [InFlight.slot_retire, if_neg hk, branchTo, InFlight.setAddress_st, State.slot_setAddress_ne _ _ (by simpa using hk)]

@[simp] theorem branchTo_ram (imm24 : Nat) (x : InFlight) : (branchTo imm24 x).st.ram = x.st.ram := by simp [branchTo]

@[simp] theorem branchTo_romLow (imm24 : Nat) (x : InFlight) : (branchTo imm24 x).st.romLow = x.st.romLow := by simp [branchTo]

@[simp] theorem branchTo_romImage (imm24 : Nat) (x : InFlight) : (branchTo imm24 x).st.romImage = x.st.romImage := by
  simp [branchTo]

@[simp] theorem branchTo_mode (imm24 : Nat) (x : InFlight) : (branchTo imm24 x).st.mode = x.st.mode := by simp [branchTo]

/-- The link write changes the R14 of the mode alone (41_branch.md R121). -/
theorem slot_linkRegister (s : State) (k : Fin 27) :
    (linkRegister (InFlight.start s)).st.slot k =
      if k = phys s.mode Reg.lr then (s.fetchAddr + 8#32) &&& Config.addrMask else s.slot k := by
  simp only [linkRegister, InFlight.set_st, InFlight.start_st, State.slot_set, State.getAddress_pc_fetchAddr]

@[simp] theorem linkRegister_mode (x : InFlight) : (linkRegister x).st.mode = x.st.mode := by
  simp only [linkRegister, InFlight.set_st]
  exact State.mode_set _ _ (by decide)

@[simp] theorem linkRegister_ram (x : InFlight) : (linkRegister x).st.ram = x.st.ram := rfl

@[simp] theorem linkRegister_romLow (x : InFlight) : (linkRegister x).st.romLow = x.st.romLow := rfl

@[simp] theorem linkRegister_romImage (x : InFlight) : (linkRegister x).st.romImage = x.st.romImage := rfl

/-! ### Write-back and the advance after a transfer's access -/

/-- Every slot but R15's after write-back and the advance (42_load_store.md R136). -/
theorem slot_writeBack (ix : Indexing) (rn : Reg) (base soff : Word) (x : InFlight) {k : Fin 27} (hk : k ≠ 15) :
    (writeBack ix rn (effectiveAddress ix base soff) soff x).retire.slot k =
      if Indexing.writesBack ix = true ∧ k = phys x.st.mode rn then base + soff else x.st.slot k := by
  rw [InFlight.slot_retire, if_neg hk]
  rcases writeBack_cases ix rn (effectiveAddress ix base soff) soff x with ⟨h, e⟩ | ⟨h, e⟩
  · rw [e, InFlight.setAddress_st, State.slot_setAddress, writeBackValue_eq]
    by_cases hr : k = phys x.st.mode rn
    · have : rn ≠ Reg.pc := fun e => hk (by rw [hr, e, phys_pc])
      simp [hr, h, this]
    · simp [hr]
  · rw [e, if_neg (fun hh => by rw [h] at hh; exact absurd hh.1 (by decide))]

/-- R15 after write-back and the advance: a write-back to R15 decides it, else the access did (42_load_store.md R136). -/
theorem pc_writeBack (ix : Indexing) (rn : Reg) (base soff : Word) (x : InFlight) :
    (writeBack ix rn (effectiveAddress ix base soff) soff x).retire.slot 15 =
      if Indexing.writesBack ix = true ∧ rn = Reg.pc then splicePc (x.st.slot 15) (base + soff + 8#32)
      else splicePc (x.st.slot 15) (x.st.slot 15 + (if x.pcWritten then 8#32 else 4#32)) := by
  rw [InFlight.pc_retire]
  rcases writeBack_cases ix rn (effectiveAddress ix base soff) soff x with ⟨h, e⟩ | ⟨h, e⟩
  · rw [e, InFlight.setAddress_st, InFlight.setAddress_pcWritten, State.slot_pc_setAddress, writeBackValue_eq]
    by_cases hr : rn = Reg.pc
    · rw [if_pos hr, if_pos (⟨h, hr⟩ : Indexing.writesBack ix = true ∧ rn = Reg.pc)]
      simp only [hr, beq_self_eq_true, Bool.or_true, if_true]
      exact splicePc_then_advance _ _ _ (by decide)
    · have hb : (rn == Reg.pc) = false := by simpa using hr
      have hn : ¬ (Indexing.writesBack ix = true ∧ rn = Reg.pc) := fun hh => hr hh.2
      rw [if_neg hr, if_neg hn, hb, Bool.or_false]
  · have hn : ¬ (Indexing.writesBack ix = true ∧ rn = Reg.pc) := fun hh => by rw [h] at hh; exact absurd hh.1 (by decide)
    rw [e, if_neg hn]

@[simp] theorem mode_writeBack (ix : Indexing) (rn : Reg) (ea soff : Word) (x : InFlight) :
    (writeBack ix rn ea soff x).st.mode = x.st.mode := by
  rcases writeBack_cases ix rn ea soff x with ⟨_, e⟩ | ⟨_, e⟩ <;> simp [e]

@[simp] theorem ram_writeBack (ix : Indexing) (rn : Reg) (ea soff : Word) (x : InFlight) :
    (writeBack ix rn ea soff x).st.ram = x.st.ram := by
  rcases writeBack_cases ix rn ea soff x with ⟨_, e⟩ | ⟨_, e⟩ <;> simp [e]

@[simp] theorem romLow_writeBack (ix : Indexing) (rn : Reg) (ea soff : Word) (x : InFlight) :
    (writeBack ix rn ea soff x).st.romLow = x.st.romLow := by
  rcases writeBack_cases ix rn ea soff x with ⟨_, e⟩ | ⟨_, e⟩ <;> simp [e]

@[simp] theorem romImage_writeBack (ix : Indexing) (rn : Reg) (ea soff : Word) (x : InFlight) :
    (writeBack ix rn ea soff x).st.romImage = x.st.romImage := by
  rcases writeBack_cases ix rn ea soff x with ⟨_, e⟩ | ⟨_, e⟩ <;> simp [e]

/-! ### The accesses, from the state a transfer starts in (42_load_store.md R132 to R135) -/

theorem loadWordInto_start (rd : Reg) (ea : Word) (s : State) :
    loadWordInto rd ea (InFlight.start s) = (InFlight.start s).setAddress rd (s.loadWord ea) := rfl

theorem loadByteInto_start (rd : Reg) (ea : Word) (s : State) :
    loadByteInto rd ea (InFlight.start s) = (InFlight.start s).setAddress rd (BitVec.ofNat 32 (s.loadByte ea).toNat) := by
  have : (s.loadByte ea).zeroExtend 32 = BitVec.ofNat 32 (s.loadByte ea).toNat := by
    apply BitVec.eq_of_toNat_eq; simp [BitVec.toNat_setWidth]
  rw [loadByteInto, InFlight.start_st, this]

theorem storeWordFrom_start (rd : Reg) (ea : Word) (s : State) :
    storeWordFrom rd ea (InFlight.start s) = (InFlight.start s).storeWord ea (s.getAddress rd) := rfl

theorem storeByteFrom_start (rd : Reg) (ea : Word) (s : State) :
    storeByteFrom rd ea (InFlight.start s) =
      (InFlight.start s).storeWord ea ((s.getAddress rd &&& 0xFF#32) <<< (8 * (ea.toNat % 4))) := by
  have : byteInLane ea ((s.getAddress rd).extractLsb' 0 8) = (s.getAddress rd &&& 0xFF#32) <<< (8 * (ea.toNat % 4)) := by
    rw [byteInLane, laneOf_eq]
    congr 1
    apply BitVec.eq_of_toNat_eq
    have low : (s.getAddress rd &&& 0xFF#32).toNat = (s.getAddress rd).toNat &&& (2 ^ 8 - 1) := by rw [BitVec.toNat_and]; rfl
    rw [low, Nat.and_two_pow_sub_one_eq_mod]
    simp [BitVec.toNat_setWidth]
    omega
  simp only [storeByteFrom, InFlight.storeByte, InFlight.storeWord, State.storeByte, this, InFlight.start_st]

/-! ### The execute operation of each transfer, from the state it starts in -/

theorem strImmOperation_start (ix : Indexing) (rn rd : Reg) (imm12 : Nat) (s : State) :
    strImmOperation ix rn rd imm12 (InFlight.start s) = transfer ix rn (immOffset imm12) (storeWordFrom rd) (InFlight.start s) := rfl

theorem ldrImmOperation_start (ix : Indexing) (rn rd : Reg) (imm12 : Nat) (s : State) :
    ldrImmOperation ix rn rd imm12 (InFlight.start s) = transfer ix rn (immOffset imm12) (loadWordInto rd) (InFlight.start s) := rfl

theorem strbImmOperation_start (ix : Indexing) (rn rd : Reg) (imm12 : Nat) (s : State) :
    strbImmOperation ix rn rd imm12 (InFlight.start s) = transfer ix rn (immOffset imm12) (storeByteFrom rd) (InFlight.start s) := rfl

theorem ldrbImmOperation_start (ix : Indexing) (rn rd : Reg) (imm12 : Nat) (s : State) :
    ldrbImmOperation ix rn rd imm12 (InFlight.start s) = transfer ix rn (immOffset imm12) (loadByteInto rd) (InFlight.start s) := rfl

theorem strRegOperation_start (ix : Indexing) (rn rd : Reg) (sh : ShiftedReg) (s : State) :
    strRegOperation ix rn rd sh (InFlight.start s) = transfer ix rn (regOffset s sh) (storeWordFrom rd) (InFlight.start s) := rfl

theorem ldrRegOperation_start (ix : Indexing) (rn rd : Reg) (sh : ShiftedReg) (s : State) :
    ldrRegOperation ix rn rd sh (InFlight.start s) = transfer ix rn (regOffset s sh) (loadWordInto rd) (InFlight.start s) := rfl

theorem strbRegOperation_start (ix : Indexing) (rn rd : Reg) (sh : ShiftedReg) (s : State) :
    strbRegOperation ix rn rd sh (InFlight.start s) = transfer ix rn (regOffset s sh) (storeByteFrom rd) (InFlight.start s) := rfl

theorem ldrbRegOperation_start (ix : Indexing) (rn rd : Reg) (sh : ShiftedReg) (s : State) :
    ldrbRegOperation ix rn rd sh (InFlight.start s) = transfer ix rn (regOffset s sh) (loadByteInto rd) (InFlight.start s) := rfl

/-- A transfer from the state it starts in: the access at the effective address, then write-back (42_load_store.md R137). -/
theorem transfer_start (ix : Indexing) (rn : Reg) (off : Word) (access : Word → InFlight → InFlight) (s : State) :
    transfer ix rn off access (InFlight.start s) =
      writeBack ix rn (effectiveAddress ix (s.getAddress rn) (signedOffset ix off)) (signedOffset ix off)
        (access (effectiveAddress ix (s.getAddress rn) (signedOffset ix off)) (InFlight.start s)) := rfl

/-! ### Every arm -/

/-- An instruction whose condition fails only advances the PC (40_step_cycle.md R106, R109). -/
theorem exec_skipped {i : Instr} {s : State} (h : s.passes i.cond = false) : exec i s = .next (InFlight.start s).retire := by
  cases i with
  | und100 c ignored => exact if_neg (by simpa [Instr.cond] using h)
  | und11x c ignored => exact if_neg (by simpa [Instr.cond] using h)
  | _ => exact underCondition_fail _ h

/-- An executed instruction is its execute operation and the PC advance (40_step_cycle.md R107, R109). -/
theorem exec_executes {i : Instr} {s : State} (hc : i.class ≠ .undefined) (hp : s.passes i.cond = true) :
    exec i s = .next (executeOperation i (InFlight.start s)).retire := by
  cases i with
  | und100 c ignored => exact absurd rfl hc
  | und11x c ignored => exact absurd rfl hc
  | _ => exact underCondition_pass _ hp

/-- An instruction that is not an executed Undefined word completes (60_exceptions.md R160). -/
theorem exec_completes {i : Instr} {s : State} (h : ¬ (i.class = .undefined ∧ s.passes i.cond = true)) :
    ∃ t, exec i s = .next t := by
  by_cases hp : s.passes i.cond = true
  · exact ⟨_, exec_executes (fun hc => h ⟨hc, hp⟩) hp⟩
  · exact ⟨_, exec_skipped (by simpa using hp)⟩

/-- An executed Undefined word raises with its own encoding as the word (60_exceptions.md R161). -/
theorem exec_raises {i : Instr} {s : State} (hc : i.class = .undefined) (hp : s.passes i.cond = true) :
    exec i s = .fault (.undefinedInstruction s.fetchAddr (encode i)) := by
  cases i <;> simp only [Instr.class, reduceCtorEq] at hc <;> simp only [Instr.cond] at hp <;>
    simp [exec, execUnd100, execUnd11x, undefinedUnderCondition, hp, raiseUndefined]

/-- Everything `exec` can answer with a next state: the skipped instruction, or the execute operation and the advance. -/
theorem exec_cases {i : Instr} {s t : State} (h : exec i s = .next t) :
    (s.passes i.cond = false ∧ t = (InFlight.start s).retire) ∨
    (s.passes i.cond = true ∧ i.class ≠ .undefined ∧ t = (executeOperation i (InFlight.start s)).retire) := by
  cases hp : s.passes i.cond
  · rw [exec_skipped hp] at h
    injection h with h
    exact .inl ⟨rfl, h.symm⟩
  · by_cases hc : i.class = .undefined
    · rw [exec_raises hc hp] at h
      injection h
    · rw [exec_executes hc hp] at h
      injection h with h
      exact .inr ⟨rfl, hc, h.symm⟩

/-! ### The execute operation: RAM outside the stores, the map, the mode -/

@[simp] theorem transfer_romLow (ix : Indexing) (rn : Reg) (off : Word) (access : Word → InFlight → InFlight) (x : InFlight)
    (h : ∀ ea, (access ea x).st.romLow = x.st.romLow) : (transfer ix rn off access x).st.romLow = x.st.romLow := by
  simp [transfer, h]

@[simp] theorem transfer_romImage (ix : Indexing) (rn : Reg) (off : Word) (access : Word → InFlight → InFlight) (x : InFlight)
    (h : ∀ ea, (access ea x).st.romImage = x.st.romImage) : (transfer ix rn off access x).st.romImage = x.st.romImage := by
  simp [transfer, h]

@[simp] theorem transfer_mode (ix : Indexing) (rn : Reg) (off : Word) (access : Word → InFlight → InFlight) (x : InFlight)
    (h : ∀ ea, (access ea x).st.mode = x.st.mode) : (transfer ix rn off access x).st.mode = x.st.mode := by
  simp [transfer, h]

@[simp] theorem transfer_ram (ix : Indexing) (rn : Reg) (off : Word) (access : Word → InFlight → InFlight) (x : InFlight)
    {m : Memory} (h : ∀ ea, (access ea x).st.ram = m) : (transfer ix rn off access x).st.ram = m := by
  simp [transfer, h]

/-- No execute operation changes `rom_low` (10_state.md R35). -/
@[simp] theorem executeOperation_romLow (i : Instr) (x : InFlight) : (executeOperation i x).st.romLow = x.st.romLow := by
  cases i <;> simp [executeOperation, linkAndBranch, noOperation, strImmOperation, ldrImmOperation, strbImmOperation,
    ldrbImmOperation, strRegOperation, ldrRegOperation, strbRegOperation, ldrbRegOperation, loadWordInto, loadByteInto,
    storeWordFrom, storeByteFrom]

/-- No execute operation changes the ROM image (00_scope.md R8). -/
@[simp] theorem executeOperation_romImage (i : Instr) (x : InFlight) : (executeOperation i x).st.romImage = x.st.romImage := by
  cases i <;> simp [executeOperation, linkAndBranch, noOperation, strImmOperation, ldrImmOperation, strbImmOperation,
    ldrbImmOperation, strRegOperation, ldrRegOperation, strbRegOperation, ldrbRegOperation, loadWordInto, loadByteInto,
    storeWordFrom, storeByteFrom]

/-- No execute operation changes the mode (10_state.md R32). -/
@[simp] theorem executeOperation_mode (i : Instr) (x : InFlight) : (executeOperation i x).st.mode = x.st.mode := by
  cases i <;> simp [executeOperation, linkAndBranch, noOperation, strImmOperation, ldrImmOperation, strbImmOperation,
    ldrbImmOperation, strRegOperation, ldrRegOperation, strbRegOperation, ldrbRegOperation, loadWordInto, loadByteInto,
    storeWordFrom, storeByteFrom]

end Sys2Proof.Machine
end

