-- ==== Sys2Proof/Laws/Loader.lean ====
section
/-! SUPPORT. A placed word is the word the next step fetches (logs 1 and 23). -/

namespace Sys2Proof.Machine

theorem romByte_romWithWord (image : List Byte) (o : Nat) (w : Word) (k : Nat) (hk : k < 4) :
    romByte (romWithWord image o w) (o + k) = byteLane w k := by
  have hlen : (image.take o ++ List.replicate (o - image.length) 0#8).length = o := by simp; omega
  unfold romByte romWithWord
  rw [List.append_assoc, List.getD_eq_getElem?_getD, List.getElem?_append_right (by omega), hlen,
    Nat.add_sub_cancel_left, List.getElem?_append_left (by simpa [bytesOfWord] using hk)]
  have : k = 0 ∨ k = 1 ∨ k = 2 ∨ k = 3 := by omega
  rcases this with rfl | rfl | rfl | rfl <;> rfl

theorem romWord_romWithWord (image : List Byte) (o : Nat) (w : Word) : romWord (romWithWord image o w) o = w := by
  have h0 := romByte_romWithWord image o w 0 (by omega)
  rw [Nat.add_zero] at h0
  simp only [romWord, h0, romByte_romWithWord image o w 1 (by omega), romByte_romWithWord image o w 2 (by omega),
    romByte_romWithWord image o w 3 (by omega), wordOfBytes_lanes]

/-- A word stored where RAM stands behind the fetch address is fetched next (20_memory.md R68). -/
theorem State.fetchWord_storeWord {s : State} {a w : Word} (hr : s.ramOffset a ≠ none)
    (ha : s.ramOffset s.fetchAddr = s.ramOffset a) : (s.storeWord a w).fetchWord = w := by
  have hf : (s.storeWord a w).fetchAddr = s.fetchAddr := State.fetchAddr_congr (by simp)
  rw [State.fetchWord, hf, State.loadWord_storeWord, if_pos ⟨hr, ha⟩]

/-- The next step of the state fetches the placed word, from every state. -/
theorem State.fetchWord_placeFetchWord (s : State) (w : Word) : (s.placeFetchWord w).fetchWord = w := by
  have spare : ((s.setAddress Reg.pc (spareFetchAddr + Config.pipeOffset)).storeWord spareFetchAddr w).fetchWord = w := by
    have hf : (s.setAddress Reg.pc (spareFetchAddr + Config.pipeOffset)).fetchAddr = spareFetchAddr := by
      rw [State.fetchAddr, State.getAddress_pc, State.slot_pc_setAddress, if_pos rfl, splicePc_addr]
      rfl
    have hl : ∀ low : Bool, locate low spareFetchAddr = .ram 0 := by decide
    have ho : s.ramOffset spareFetchAddr = some 0 := State.ramOffset_eq_some.2 (hl s.romLow)
    apply State.fetchWord_storeWord
    · simp [ho]
    · rw [hf]
  unfold State.placeFetchWord
  cases e : s.backing s.fetchAddr with
  | ram o =>
    have ho : s.ramOffset s.fetchAddr = some o := State.ramOffset_eq_some.2 e
    exact State.fetchWord_storeWord (by simp [ho]) rfl
  | lowMappedRom o =>
    have hb : ({ s with romImage := romWithWord s.romImage o w } : State).backing s.fetchAddr = .lowMappedRom o := e
    have hf : ({ s with romImage := romWithWord s.romImage o w } : State).fetchAddr = s.fetchAddr := rfl
    simp only [State.fetchWord, hf, State.loadWord, hb, romWord_romWithWord]
  | highRom o =>
    have hb : ({ s with romImage := romWithWord s.romImage o w } : State).backing s.fetchAddr = .highRom o := e
    have hf : ({ s with romImage := romWithWord s.romImage o w } : State).fetchAddr = s.fetchAddr := rfl
    simp only [State.fetchWord, hf, State.loadWord, hb, romWord_romWithWord]
  | noRam => exact spare
  | io => exact spare
  | lowRom => exact spare

/-- The step after `withFetchWord` runs the instruction of the placed word. -/
theorem step_withFetchWord (s : State) (nbits w : Nat) :
    step (s.withFetchWord nbits w) = exec (decodeWord (BitVec.ofNat 32 (w % 2 ^ nbits))) (s.withFetchWord nbits w) := by
  rw [step_eq, State.withFetchWord, State.fetchWord_placeFetchWord]

end Sys2Proof.Machine
end

