-- ==== Sys2Proof/Laws/PerInstr.lean ====
section
/-! SUPPORT. Per-instruction statements about the syntax. -/

namespace Sys2Proof

theorem and_mask_27_24 (w : Word) : w &&& 0x0F000000#32 = (w.extractLsb' 24 4).zeroExtend 32 <<< 24 := by
  apply word_eq_of_bits
  intro i
  fin_cases i <;> simp [BitVec.getElem_shiftLeft]

theorem and_mask_27_26_direct (w : Word) : w &&& 0x0C000000#32 = (w.extractLsb' 26 2).zeroExtend 32 <<< 26 := by
  apply word_eq_of_bits
  intro i
  fin_cases i <;> simp [BitVec.getElem_shiftLeft]

/-- The identifying bits of a Load/Store word: 27:25, 22 and 20 (R97). -/
theorem and_mask_transfer (w : Word) :
    w &&& 0x0E500000#32 = (w.extractLsb' 26 2).zeroExtend 32 <<< 26 |||
      (if w.getLsbD 25 then 0x02000000#32 else 0#32) ||| (if w.getLsbD 22 then 0x00400000#32 else 0#32) |||
      (if w.getLsbD 20 then 0x00100000#32 else 0#32) := by
  apply word_eq_of_bits
  intro i
  cases h25 : w.getLsbD 25 <;> cases h22 : w.getLsbD 22 <;> cases h20 : w.getLsbD 20 <;> fin_cases i <;>
    simp_all [BitVec.getElem_shiftLeft]

/-- The identifying bits of an encoded transfer (R86, R97). -/
theorem encodeTransfer_identifies (c : Cond) (regForm byte load : Bool) (ix : Indexing) (rn rd : Reg) (off : BitVec 12) :
    encodeTransfer c regForm byte load ix rn rd off &&& 0x0E500000#32 =
      0x04000000#32 ||| (if regForm then 0x02000000#32 else 0#32) ||| (if byte then 0x00400000#32 else 0#32) |||
        (if load then 0x00100000#32 else 0#32) := by
  rw [and_mask_transfer, encodeTransfer_class, encodeTransfer_regForm, encodeTransfer_byte, encodeTransfer_load]
  rfl

/-- The identifying bits of an encoded branch (R84, R97). -/
theorem encodeBranch_identifies (c : Cond) (link : Bool) (n : Nat) :
    encodeBranch c link n &&& 0x0F000000#32 = 0x0A000000#32 ||| (if link then 0x01000000#32 else 0#32) := by
  have h : (encodeBranch c link n).extractLsb' 24 4 = 0b101#3 ++ BitVec.ofBool link := by
    apply BitVec.eq_of_getLsbD_eq
    intro i hi
    simp only [encodeBranch, BitVec.getLsbD_extractLsb', BitVec.getLsbD_append]
    have : i = 0 ∨ i = 1 ∨ i = 2 ∨ i = 3 := by omega
    rcases this with rfl | rfl | rfl | rfl <;> simp
  rw [and_mask_27_24, h]
  cases link <;> rfl

end Sys2Proof

namespace Sys2Proof.Laws.EncodedRow

/-- The word of an instruction belongs to the instruction's row of the opcode table (30_encoding.md R97). -/
def Statement (i : Instr) : Prop := i.row.accepts (encode i) = true

theorem b (c : Cond) (n : Nat) : Statement (.b c n) := by
  simp [Statement, Row.accepts, Row.mask, Row.pattern, Instr.row, encode, encodeBranch_identifies]

theorem bl (c : Cond) (n : Nat) : Statement (.bl c n) := by
  simp [Statement, Row.accepts, Row.mask, Row.pattern, Instr.row, encode, encodeBranch_identifies]

theorem strImm (c : Cond) (ix : Indexing) (rn rd : Reg) (n : Nat) : Statement (.strImm c ix rn rd n) := by
  simp [Statement, Row.accepts, Row.mask, Row.pattern, Instr.row, encode, encodeTransfer_identifies]

theorem ldrImm (c : Cond) (ix : Indexing) (rn rd : Reg) (n : Nat) : Statement (.ldrImm c ix rn rd n) := by
  simp [Statement, Row.accepts, Row.mask, Row.pattern, Instr.row, encode, encodeTransfer_identifies]

theorem strbImm (c : Cond) (ix : Indexing) (rn rd : Reg) (n : Nat) : Statement (.strbImm c ix rn rd n) := by
  simp [Statement, Row.accepts, Row.mask, Row.pattern, Instr.row, encode, encodeTransfer_identifies]

theorem ldrbImm (c : Cond) (ix : Indexing) (rn rd : Reg) (n : Nat) : Statement (.ldrbImm c ix rn rd n) := by
  simp [Statement, Row.accepts, Row.mask, Row.pattern, Instr.row, encode, encodeTransfer_identifies]

theorem strReg (c : Cond) (ix : Indexing) (rn rd : Reg) (sh : ShiftedReg) : Statement (.strReg c ix rn rd sh) := by
  simp [Statement, Row.accepts, Row.mask, Row.pattern, Instr.row, encode, encodeTransfer_identifies]

theorem ldrReg (c : Cond) (ix : Indexing) (rn rd : Reg) (sh : ShiftedReg) : Statement (.ldrReg c ix rn rd sh) := by
  simp [Statement, Row.accepts, Row.mask, Row.pattern, Instr.row, encode, encodeTransfer_identifies]

theorem strbReg (c : Cond) (ix : Indexing) (rn rd : Reg) (sh : ShiftedReg) : Statement (.strbReg c ix rn rd sh) := by
  simp [Statement, Row.accepts, Row.mask, Row.pattern, Instr.row, encode, encodeTransfer_identifies]

theorem ldrbReg (c : Cond) (ix : Indexing) (rn rd : Reg) (sh : ShiftedReg) : Statement (.ldrbReg c ix rn rd sh) := by
  simp [Statement, Row.accepts, Row.mask, Row.pattern, Instr.row, encode, encodeTransfer_identifies]

theorem dp (c : Cond) (ignored : BitVec 26) : Statement (.dp c ignored) := by
  have h := (encodeStub_fields c 0b00#2 ignored).2.1
  simp only [Statement, Row.accepts, Row.mask, Row.pattern, Instr.row, encode, and_mask_27_26_direct, h]
  rfl

theorem und100 (c : Cond) (ignored : BitVec 25) : Statement (.und100 c ignored) := by
  have h := (encodeUnd100_fields c ignored).2.1
  simp only [Statement, Row.accepts, Row.mask, Row.pattern, Instr.row, encode, and_mask_27_25, h]
  rfl

theorem und11x (c : Cond) (ignored : BitVec 26) : Statement (.und11x c ignored) := by
  have h := (encodeStub_fields c 0b11#2 ignored).2.1
  simp only [Statement, Row.accepts, Row.mask, Row.pattern, Instr.row, encode, and_mask_27_26_direct, h]
  rfl

end Sys2Proof.Laws.EncodedRow
end

