-- ==== Sys2Proof/Tests/Slice0.lean ====
section
/-! SUPPORT. The model's own tests: ill-formed terms refused, words written out from 30_encoding.md and 95_test_vectors.md,
single steps of 95_test_vectors.md, and witnesses that meet the hypotheses of every statement. Expected values come from the
vectors or from the named rules by hand, never from the model. -/

namespace Sys2Proof.Tests

open Sys2Proof.Machine Sys2Proof.Claims

/-! ### Helpers -/

/-- The next state of an outcome, if it is one. -/
def nextOf : Outcome → Option State
  | .next t => some t
  | .fault _ => none
  | .refused _ => none

/-- The fault of an outcome, if it is one. -/
def faultOf : Outcome → Option Fault
  | .next _ => none
  | .fault f => some f
  | .refused _ => none

/-- What a one-step test looks at: the packed R15, three slots and a RAM word after the step. -/
def seen (a : Word) (k1 k2 k3 : Fin 27) (o : Outcome) : Option (Word × Word × Word × Word × Word) :=
  (nextOf o).map fun t => (t.slot 15, t.slot k1, t.slot k2, t.slot k3, t.loadWord a)

/-- The common start of vectors T7 with R15 given: R1, R2, R3 and four RAM words. -/
def start (packed : Word) : State :=
  let regs := ((((State.construct []).setSlot 15 packed).setSlot 1 0x02001000#32).setSlot 2 0xDEADBEEF#32).setSlot 3 4#32
  (((regs.storeWord 0x02000FFC#32 0x99AABBCC#32).storeWord 0x02001000#32 0x11223344#32).storeWord
    0x02001004#32 0x55667788#32).storeWord 0x02001010#32 0xCAFEF00D#32

/-- One step with a word placed at the fetch address. -/
def stepWord (s : State) (w : Word) : Outcome := step (s.placeFetchWord w)

/-- The ROM image of vectors S8 and T4. -/
def rom14 : State :=
  State.construct [0x11#8, 0x11#8, 0x11#8, 0x11#8, 0x22#8, 0x22#8, 0x22#8, 0x22#8, 0x33#8, 0x33#8, 0x33#8, 0x33#8, 0xAA#8, 0xBB#8]

/-- `rom14` with the ROM mapped away and one RAM word. -/
def ramLow : State := ({ rom14 with romLow := false } : State).storeWord 0x02001000#32 0x005A0000#32

/-! ### WellFormed refuses what no word holds -/

theorem test_wf_imm24_refused : (Instr.b .al 0x1000000).wellFormed = false ∧ (Instr.bl .al 0x1000000).wellFormed = false := by
  decide

theorem test_wf_imm12_refused :
    (Instr.strImm .al ⟨true, true, false⟩ 1 0 4096).wellFormed = false ∧
    (Instr.ldrImm .al ⟨true, true, false⟩ 1 0 4096).wellFormed = false ∧
    (Instr.strbImm .al ⟨true, true, false⟩ 1 0 4096).wellFormed = false ∧
    (Instr.ldrbImm .al ⟨true, true, false⟩ 1 0 4096).wellFormed = false := by decide

theorem test_wf_amount_refused :
    (Instr.strReg .al ⟨true, true, false⟩ 1 0 ⟨32, .lsl, false, 3⟩).wellFormed = false ∧
    (Instr.ldrReg .al ⟨true, true, false⟩ 1 0 ⟨32, .lsl, false, 3⟩).wellFormed = false ∧
    (Instr.strbReg .al ⟨true, true, false⟩ 1 0 ⟨32, .lsl, false, 3⟩).wellFormed = false ∧
    (Instr.ldrbReg .al ⟨true, true, false⟩ 1 0 ⟨32, .lsl, false, 3⟩).wellFormed = false := by decide

theorem test_decode_truncated : decode [0xEA#8, 0x00#8, 0x00#8] = .error .truncated := rfl

/-! ### A word of every constructor, its fields written out (30_encoding.md R84 to R91) -/

-- cond 1010 101 0 imm24: BGE
theorem test_decode_b : decodeWord 0b1010_101_0_000000000000000000010000#32 = .b .ge 0x10 := by decide

theorem test_decode_bl : decodeWord 0b1110_101_1_000000000000000000010000#32 = .bl .al 0x10 := by decide

-- cond 01 I P U B W L Rn Rd imm12
theorem test_decode_strImm : decodeWord 0b1110_01_0_1_1_0_1_0_0001_0010_000000001000#32 =
    .strImm .al ⟨true, true, true⟩ 1 2 8 := by decide

theorem test_decode_ldrImm : decodeWord 0b1110_01_0_0_0_0_0_1_0001_0000_000000000100#32 =
    .ldrImm .al ⟨false, false, false⟩ 1 0 4 := by decide

theorem test_decode_strbImm : decodeWord 0b1110_01_0_1_1_1_0_0_0001_0010_000000000011#32 =
    .strbImm .al ⟨true, true, false⟩ 1 2 3 := by decide

theorem test_decode_ldrbImm : decodeWord 0b0001_01_0_1_0_1_0_1_0001_0100_000000000001#32 =
    .ldrbImm .ne ⟨true, false, false⟩ 1 4 1 := by decide

-- cond 01 I P U B W L Rn Rd shamt stype x Rm
theorem test_decode_strReg : decodeWord 0b1110_01_1_0_1_0_0_0_0001_0010_00010_01_0_0011#32 =
    .strReg .al ⟨false, true, false⟩ 1 2 ⟨2, .lsr, false, 3⟩ := by decide

theorem test_decode_ldrReg : decodeWord 0b1110_01_1_1_1_0_0_1_0001_0000_11100_10_0_0011#32 =
    .ldrReg .al ⟨true, true, false⟩ 1 0 ⟨28, .asr, false, 3⟩ := by decide

theorem test_decode_strbReg : decodeWord 0b1110_01_1_1_0_1_1_0_1101_1110_00001_11_0_1100#32 =
    .strbReg .al ⟨true, false, true⟩ 13 14 ⟨1, .ror, false, 12⟩ := by decide

-- the ignored bit 4 is set: vector T1, 0x06000010 with B and L set
theorem test_decode_ldrbReg : decodeWord 0b0000_01_1_0_0_1_0_1_0000_0000_00000_00_1_0000#32 =
    .ldrbReg .eq ⟨false, false, false⟩ 0 0 ⟨0, .lsl, true, 0⟩ := by decide

theorem test_decode_dp : decodeWord 0xE3A00001#32 = .dp .al 0x3A00001#26 ∧ decodeWord 0x00000000#32 = .dp .eq 0#26 := by decide

theorem test_decode_und100 : decodeWord 0xE92D4000#32 = .und100 .al 0x12D4000#25 := by decide

theorem test_decode_und11x : decodeWord 0xEC000000#32 = .und11x .al 0#26 ∧ decodeWord 0xFFFFFFFF#32 = .und11x .nv 0x3FFFFFF#26 := by
  decide

/-- The identifying patterns of two different rows differ in a bit both rows fix (R97). -/
theorem test_rows_disjoint :
    Row.all.Pairwise (fun r r' => (r.pattern ^^^ r'.pattern) &&& r.mask &&& r'.mask ≠ 0#32) := by decide

/-! ### The condition table, all 256 cases (vector S4) -/

/-- The mask of S4: bit `N*8 + Z*4 + C*2 + V` is set when the condition is met. -/
def maskOf (c : Cond) : List Bool :=
  (List.range 16).map fun f => conditionMet c ⟨f.testBit 3, f.testBit 2, f.testBit 1, f.testBit 0⟩

/-- The 16 bits of a mask, bit 0 first. -/
def bitsOf (m : Nat) : List Bool := (List.range 16).map fun i => m.testBit i

theorem test_condition_masks :
    maskOf .eq = bitsOf 0xF0F0 ∧ maskOf .ne = bitsOf 0x0F0F ∧ maskOf .cs = bitsOf 0xCCCC ∧ maskOf .cc = bitsOf 0x3333 ∧
    maskOf .mi = bitsOf 0xFF00 ∧ maskOf .pl = bitsOf 0x00FF ∧ maskOf .vs = bitsOf 0xF0F0 ∧ maskOf .vc = bitsOf 0x0F0F ∧
    maskOf .hi = bitsOf 0x0C0C ∧ maskOf .ls = bitsOf 0xF3F3 ∧ maskOf .ge = bitsOf 0xAA55 ∧ maskOf .lt = bitsOf 0x55AA ∧
    maskOf .gt = bitsOf 0x0A05 ∧ maskOf .le = bitsOf 0xF5FA ∧ maskOf .al = bitsOf 0xFFFF ∧ maskOf .nv = bitsOf 0x0000 := by
  decide

/-! ### Single steps (vectors T6 to T9) -/

-- T6 `0xEAFFFFBE`: backward branch
theorem test_step_b : seen 0#32 0 1 14 (stepWord (start 0x02000108#32) 0xEAFFFFBE#32) =
    some (0x02000008#32, 0#32, 0x02001000#32, 0#32, 0#32) := by decide

-- T6 `0xEA000000`: offset 0 still counts as a write
theorem test_step_b_offset_zero : seen 0#32 0 1 14 (stepWord (start 0x02000108#32) 0xEA000000#32) =
    some (0x02000110#32, 0#32, 0x02001000#32, 0#32, 0#32) := by decide

-- T6 `0xEB000010` in SVC: the link goes to slot 26, without flags or mode
theorem test_step_bl : seen 0#32 26 22 14 (stepWord (start 0x6E00010B#32) 0xEB000010#32) =
    some (0x6E000153#32, 0x02000108#32, 0#32, 0#32, 0#32) := by decide

-- T6 `0x0B000010` with Z clear: no link
theorem test_step_bl_skipped : seen 0#32 14 1 0 (stepWord (start 0x02000108#32) 0x0B000010#32) =
    some (0x0200010C#32, 0#32, 0x02001000#32, 0#32, 0#32) := by decide

-- T7 `0xE5A11004`: the old base is stored, then written back
theorem test_step_strImm : seen 0x02001004#32 1 2 3 (stepWord (start 0x02000108#32) 0xE5A11004#32) =
    some (0x0200010C#32, 0x02001004#32, 0xDEADBEEF#32, 4#32, 0x02001000#32) := by decide

-- T7 `0xE581F000`: R15 is stored without flags or mode
theorem test_step_strImm_pc : seen 0x02001000#32 1 2 3 (stepWord (start 0x62000109#32) 0xE581F000#32) =
    some (0x6200010D#32, 0x02001000#32, 0xDEADBEEF#32, 4#32, 0x02000108#32) := by decide

-- T7 `0xE5B11004`: the write-back wins over the loaded value
theorem test_step_ldrImm : seen 0x02001004#32 1 2 3 (stepWord (start 0x02000108#32) 0xE5B11004#32) =
    some (0x0200010C#32, 0x02001004#32, 0xDEADBEEF#32, 4#32, 0x55667788#32) := by decide

-- T7 `0xE591F010`: a load into R15 goes there
theorem test_step_ldrImm_pc : seen 0x02001010#32 1 2 3 (stepWord (start 0x02000108#32) 0xE591F010#32) =
    some (0x02FEF014#32, 0x02001000#32, 0xDEADBEEF#32, 4#32, 0xCAFEF00D#32) := by decide

-- T7 `0xE5C12001`: the other three lanes become zero
theorem test_step_strbImm : seen 0x02001000#32 1 2 3 (stepWord (start 0x02000108#32) 0xE5C12001#32) =
    some (0x0200010C#32, 0x02001000#32, 0xDEADBEEF#32, 4#32, 0x0000EF00#32) := by decide

-- T7 `0xE4D10001`: post-indexed byte load
theorem test_step_ldrbImm : seen 0x02001000#32 0 1 3 (stepWord (start 0x02000108#32) 0xE4D10001#32) =
    some (0x0200010C#32, 0x44#32, 0x02001001#32, 4#32, 0x11223344#32) := by decide

-- STR R2, [R1], R3, LSL #2: by R130, R134, R136
theorem test_step_strReg : seen 0x02001000#32 1 2 3 (stepWord (start 0x02000108#32) 0xE6812103#32) =
    some (0x0200010C#32, 0x02001010#32, 0xDEADBEEF#32, 4#32, 0xDEADBEEF#32) := by decide

-- T7 `0xE6913003`: the offset was read before R3 was loaded
theorem test_step_ldrReg : seen 0x02001000#32 1 2 3 (stepWord (start 0x02000108#32) 0xE6913003#32) =
    some (0x0200010C#32, 0x02001004#32, 0xDEADBEEF#32, 0x11223344#32, 0x11223344#32) := by decide

-- T7 `0xE7910E43` with R3 = 0xC0000000: ASR #28 gives -4
theorem test_step_ldrReg_asr :
    seen 0x02000FFC#32 0 1 3 (stepWord ((start 0x02000108#32).setSlot 3 0xC0000000#32) 0xE7910E43#32) =
      some (0x0200010C#32, 0x99AABBCC#32, 0x02001000#32, 0xC0000000#32, 0x99AABBCC#32) := by decide

-- STRB R2, [R1, R3, LSR #1]: ea = 0x02001002, lane 2, by R130, R135
theorem test_step_strbReg : seen 0x02001000#32 1 2 3 (stepWord (start 0x02000108#32) 0xE7C120A3#32) =
    some (0x0200010C#32, 0x02001000#32, 0xDEADBEEF#32, 4#32, 0x00EF0000#32) := by decide

-- LDRB R0, [R1, -R3]: the byte 0xCC at 0x02000FFC, by R130, R133
theorem test_step_ldrbReg : seen 0x02000FFC#32 0 1 3 (stepWord (start 0x02000108#32) 0xE7510003#32) =
    some (0x0200010C#32, 0xCC#32, 0x02001000#32, 4#32, 0x99AABBCC#32) := by decide

-- T8 `0xE1B0F00E` and T5: nothing but the advance, which wraps
theorem test_step_dp : seen 0#32 0 1 14 (stepWord (start 0x02000108#32) 0xE1B0F00E#32) =
    some (0x0200010C#32, 0#32, 0x02001000#32, 0#32, 0#32) := by decide

theorem test_step_dp_wraps : seen 0#32 0 1 14 (step ((State.construct []).setSlot 15 0xF3FFFFFF#32)) =
    some (0xF0000003#32, 0#32, 0#32, 0#32, 0#32) := by decide

-- T9 `0xE8BD8000`, and `0x68BD8000` with V set and Z clear
theorem test_step_und100 : faultOf (stepWord (start 0x02000108#32) 0xE8BD8000#32) =
    some (.undefinedInstruction 0x02000100#32 0xE8BD8000#32) := by decide

theorem test_step_und100_skipped : seen 0#32 0 1 14 (stepWord (start 0x12000108#32) 0x68BD8000#32) =
    some (0x1200010C#32, 0#32, 0x02001000#32, 0#32, 0#32) := by decide

-- T9 `0x0F000000` with Z set, and `0xFF000000` with every flag set
theorem test_step_und11x : faultOf (stepWord (start 0x42000108#32) 0x0F000000#32) =
    some (.undefinedInstruction 0x02000100#32 0x0F000000#32) := by decide

theorem test_step_und11x_skipped : seen 0#32 0 1 14 (stepWord (start 0xF2000108#32) 0xFF000000#32) =
    some (0xF200010C#32, 0#32, 0x02001000#32, 0#32, 0#32) := by decide

/-! ### Memory and registers (vectors S6, S7, S8, T3, T4) -/

theorem test_memory_windows :
    rom14.loadWord 0x00000008#32 = 0x33333333#32 ∧ rom14.loadWord 0x0380000C#32 = 0x0000BBAA#32 ∧
    rom14.loadWord 0x07800004#32 = 0x22222222#32 ∧ ramLow.loadWord 0x00001000#32 = 0x005A0000#32 ∧
    (ramLow.storeWord 0x02400000#32 2#32) = ramLow ∧ (ramLow.storeWord 0x023FFFFC#32 1#32).loadWord 0x003FFFFC#32 = 1#32 ∧
    (rom14.storeWord 0x00001000#32 0x12345678#32) = rom14 ∧ (rom14.storeWord 0x03800000#32 0xFFFFFFFF#32) = rom14 := by decide

theorem test_memory_diagnostics :
    rom14.readDiagnostic 0x03800010#32 = some .outOfBoundsRomRead ∧ rom14.readDiagnostic 0x0380000C#32 = none ∧
    rom14.readDiagnostic 0x03000000#32 = some .stubbedIoAccess ∧ rom14.writeDiagnostic 0x037FFFFC#32 = some .stubbedIoAccess := by
  decide

theorem test_register_paths :
    ((State.construct []).setSlot 15 0xFC00000B#32 |>.setAddress 15 0x12345678#32).get 15 = 0xFE34567B#32 ∧
    ((State.construct []).setSlot 15 0x6200010A#32 |>.set 15 1#32).slot 15 = 1#32 ∧
    ((State.construct []).setSlot 15 0x6200010A#32).getAddress 15 = 0x02000108#32 := by decide

-- host execute of `B` with offset 0x10 puts 0x02000108 + 0x40 into R15 (R120) without the advance; a failing EQ is not tested
theorem test_host_execute :
    ((start 0x02000108#32).hostAction (.execute 0xEA000010#32)).slot 15 = 0x02000148#32 ∧
    ((start 0x02000108#32).hostAction (.execute 0x05812000#32)).loadWord 0x02001000#32 = 0xDEADBEEF#32 ∧
    ((start 0x02000108#32).hostAction (.execute 0x05812000#32)).slot 15 = 0x02000108#32 := by decide

theorem test_trace_line : (start 0x02000108#32 |>.placeFetchWord 0xEB000010#32).traceLine =
    ⟨0x02000100#32, 0xEB000010#32, .branch true .al 0x02000148#32⟩ := by decide

theorem test_withFetchWord_runs : faultOf (step (State.reset.withFetchWord 32 0xEF000000)) =
    some (.undefinedInstruction 0#32 0xEF000000#32) := by decide

/-! ### Witnesses: the hypotheses of the statements are met, at the boundaries of their ranges -/

-- DecodeOfEncodeIsIdentity, BranchWordLayout, TransferWordLayout
theorem test_witness_wellFormed :
    (Instr.b .al 0xFFFFFF).wellFormed = true ∧ (Instr.bl .nv 0).wellFormed = true ∧
    (Instr.ldrImm .al ⟨true, true, false⟩ 15 15 4095).wellFormed = true ∧
    (Instr.strbReg .al ⟨false, false, true⟩ 0 15 ⟨31, .ror, true, 15⟩).wellFormed = true ∧
    (Instr.dp .eq 0#26).wellFormed = true := by decide

-- DecodeClassifiesByTheMaskTests, DataProcessingOnlyAdvancesThePc: each branch of the chain, and two words that differ in the condition alone
theorem test_witness_classes :
    0xEA000000#32 &&& 0x0E000000#32 = 0x0A000000#32 ∧ 0x0FFFFFFF#32 &&& 0xEA000000#32 = 0x0FFFFFFF#32 &&& 0x1A000000#32 ∧
    0xE3A00001#32 &&& 0x0C000000#32 = 0#32 ∧ 0xE5910000#32 &&& 0x0C000000#32 = 0x04000000#32 ∧
    0xE8BD8000#32 &&& 0x0E000000#32 ≠ 0x0A000000#32 ∧ 0xE8BD8000#32 &&& 0x0C000000#32 = 0x08000000#32 := by decide

-- RegistersReadTheSlotOfTheirMode: each clause at its boundary
theorem test_witness_modes :
    ((State.construct []).setSlot 15 1#32).mode = .fiq ∧ phys .fiq 8 = 16 ∧ phys .fiq 7 = 7 ∧ phys .fiq 14 = 22 ∧
    ((State.construct []).setSlot 15 2#32).mode = .irq ∧ phys .irq 13 = 23 ∧ phys .irq 12 = 12 ∧ phys .irq 14 = 24 ∧
    ((State.construct []).setSlot 15 3#32).mode = .svc ∧ phys .svc 13 = 25 ∧ phys .svc 14 = 26 ∧ phys .svc 15 = 15 := by decide

-- GenericWriteReplacesOneSlot, AddressOnlyPathOfR15, BankedRegistersAreSeparate: other registers, and both outcomes of sharing
theorem test_witness_registers :
    (14 : Reg) ≠ 15 ∧ (16 : Fin 27) ≠ phys .user 8 ∧ SharesSlot .user 8 .svc 8 ∧ ¬ SharesSlot .user 8 .fiq 8 ∧
    ¬ SharesSlot .irq 13 .svc 13 ∧ SharesSlot .fiq 7 .user 7 ∧ modeOf 0x00000003#32 = .svc := by decide

-- HiddenBanksCannotBeObserved: two different states that look the same in User mode
theorem test_witness_hidden :
    (start 0x02000108#32) ≠ ((start 0x02000108#32).setSlot 16 1#32) ∧
    ∀ r : Reg, (start 0x02000108#32).get r = ((start 0x02000108#32).setSlot 16 1#32).get r := by decide

-- LoadWordFollowsTheRegionTable, StoreWordFollowsTheRegionTable: both ends of each range
theorem test_witness_regions :
    reduced 0xFC000003#32 = 0 ∧ reduced 0x003FFFFF#32 = 0x3FFFFC ∧ reduced 0x00400000#32 = 0x400000 ∧
    reduced 0x01FFFFFF#32 = 0x1FFFFFC ∧ reduced 0x02000000#32 = 0x2000000 ∧ reduced 0x023FFFFF#32 = 0x23FFFFC ∧
    reduced 0x02400000#32 = 0x2400000 ∧ reduced 0x037FFFFF#32 = 0x37FFFFC ∧ reduced 0x03800000#32 = 0x3800000 ∧
    reduced 0xFFFFFFFF#32 = 0x3FFFFFC ∧ ramLow.romLow = false ∧ rom14.romLow = true := by decide

-- RamWindowsShowTheSameWords
theorem test_witness_windows :
    ramLow.romLow = false ∧ reduced 0x003FFFFC#32 < 0x400000 ∧ reduced 0x023FFFFC#32 = 0x2000000 + reduced 0x003FFFFC#32 := by decide

-- AddressesAreReducedTo26AlignedBits
theorem test_witness_aliases :
    0x02001003#32 &&& 0x03FFFFFC#32 = 0xFE001003#32 &&& 0x03FFFFFC#32 ∧ 0x02001003#32 &&& 3#32 = 0xFE001003#32 &&& 3#32 := by decide

-- ConditionCodesDecode, ConditionTable: the first code, the last, and the two the spec lets test Z (R94, R105)
theorem test_witness_condition_codes :
    (decodeWord 0x0A000000#32).cond = .eq ∧ (decodeWord 0x6A000000#32).cond = .vs ∧ (decodeWord 0x7A000000#32).cond = .vc ∧
    (decodeWord 0xFA000000#32).cond = .nv ∧ condCode .eq = 0 ∧ condCode .nv = 15 ∧ (0xFFFFFFFF#32 : Word).toNat / 2 ^ 28 = 15 := by
  decide

-- ByteStoreClobbersItsNeighbours, DiagnosedAccessesReadZeroAndWriteNothing
theorem test_witness_byte_store :
    rom14.ramOffset 0x02001002#32 ≠ none ∧ rom14.ramOffset 0x02001003#32 = rom14.ramOffset 0x02001002#32 ∧
    (0x02001003#32 : Word).toNat % 4 ≠ (0x02001002#32 : Word).toNat % 4 ∧
    rom14.ramOffset 0x02001004#32 ≠ rom14.ramOffset 0x02001002#32 ∧
    rom14.readDiagnostic 0x03FFFFFC#32 ≠ none ∧ rom14.writeDiagnostic 0x03400000#32 ≠ none := by decide

-- DiagnosedAccessesReadZeroAndWriteNothing: the addresses where its ranges meet, and the straddling word (log 20)
theorem test_witness_diagnosed :
    rom14.readDiagnostic 0x02FFFFFC#32 = none ∧ rom14.readDiagnostic 0x03000000#32 = some .stubbedIoAccess ∧
    rom14.readDiagnostic 0x037FFFFF#32 = some .stubbedIoAccess ∧ rom14.readDiagnostic 0x03800000#32 = none ∧
    rom14.readDiagnostic 0x0380000F#32 = none ∧ rom14.readDiagnostic 0x03800010#32 = some .outOfBoundsRomRead ∧
    (State.construct []).readDiagnostic 0x03800000#32 = some .outOfBoundsRomRead ∧
    rom14.writeDiagnostic 0x02FFFFFC#32 = none ∧ rom14.writeDiagnostic 0x03000000#32 = some .stubbedIoAccess ∧
    rom14.writeDiagnostic 0x037FFFFF#32 = some .stubbedIoAccess ∧ rom14.writeDiagnostic 0x03800010#32 = none := by decide

-- every statement with a condition that passes or fails, and the Undefined ones
theorem test_witness_conditions :
    State.reset.passes .al = true ∧ State.reset.passes .eq = false ∧ State.reset.passes (Instr.b .eq 0).cond = false ∧
    (Instr.dp .al 0#26).class = .dataProcessing ∧ (Instr.b .al 0).class ≠ .undefined := by decide

-- StepRunsTheDecodedInstruction: the address, and the four bytes of the vector S1 followed by another
theorem test_witness_decoded :
    (0#32 : Word) = (State.reset.getAddress 15 - 8#32) &&& 0x03FFFFFC#32 ∧
    (State.construct [0#8, 0#8, 0#8, 0xEA#8]).loadByte 3#32 = 0xEA#8 := by decide

theorem test_witness_decoded_bytes : decode [0#8, 0#8, 0#8, 0xEA#8, 0x55#8] = .ok (.b .al 0, [0x55#8]) := rfl

-- StepFaultsExactlyOnExecutedUndefinedWords, FaultLeavesTheStateAndRepeats: an executed and a skipped Undefined word
theorem test_witness_undefined :
    (decodeWord ((State.construct [0#8, 0#8, 0#8, 0xEF#8]).fetchWord)).class = .undefined ∧
    (State.construct [0#8, 0#8, 0#8, 0xEF#8]).passes (decodeWord ((State.construct [0#8, 0#8, 0#8, 0xEF#8]).fetchWord)).cond = true ∧
    (State.construct [0#8, 0#8, 0#8, 0x0F#8]).passes (decodeWord ((State.construct [0#8, 0#8, 0#8, 0x0F#8]).fetchWord)).cond = false := by
  decide

-- BranchToSelfSpins
theorem test_witness_self_branch : (State.construct [0xFE#8, 0xFF#8, 0xFF#8, 0xEA#8]).fetchWord = 0xEAFFFFFE#32 := by decide

-- the load and store statements: written-back and not, and ShiftTypesComputeTheirOperation's largest amount
theorem test_witness_indexing :
    wbOf ⟨true, true, true⟩ ∧ wbOf ⟨false, true, false⟩ ∧ ¬ wbOf ⟨true, false, false⟩ ∧ (31 : Nat) < 32 ∧ (0 : Reg) ≠ 15 := by decide

-- StoredWordIsFetchedByTheNextStep: STR R2, [R1] at 0x02000100 with R1 = 0x02000104
theorem test_witness_stored_code :
    SameRamWord ((start 0x02000108#32).setSlot 1 0x02000104#32)
      (eaOf ⟨true, true, false⟩ (((start 0x02000108#32).setSlot 1 0x02000104#32).getAddress 1) (soffOf ⟨true, true, false⟩ 0#32))
      ((((start 0x02000108#32).setSlot 1 0x02000104#32).fetchAddr + 4#32) &&& 0x03FFFFFC#32) ∧
    ¬ (wbOf ⟨true, true, false⟩ ∧ (1 : Reg) = 15) := by decide

-- StoredWordIsFetchedByTheNextStep: STR R2, [R15, R3]! at 0x02000100, whose target 0x0200010C is where it stores
theorem test_witness_stored_code_writeBack :
    wbOf ⟨true, true, true⟩ ∧ fetchAfterStore ⟨true, true, true⟩ 15 4#32 (start 0x02000108#32) = 0x0200010C#32 ∧
    SameRamWord (start 0x02000108#32)
      (eaOf ⟨true, true, true⟩ ((start 0x02000108#32).getAddress 15) (soffOf ⟨true, true, true⟩ 4#32))
      (fetchAfterStore ⟨true, true, true⟩ 15 4#32 (start 0x02000108#32)) := by decide

-- the same with the byte form: STRB R2, [R15, #-4], which stores where the fetch goes on
theorem test_witness_stored_code_byte :
    fetchAfterStore ⟨true, false, false⟩ 15 4#32 (start 0x02000108#32) = 0x02000104#32 ∧
    SameRamWord (start 0x02000108#32)
      (eaOf ⟨true, false, false⟩ ((start 0x02000108#32).getAddress 15) (soffOf ⟨true, false, false⟩ 4#32))
      (fetchAfterStore ⟨true, false, false⟩ 15 4#32 (start 0x02000108#32)) := by decide

-- RunsCompose: a run of one step that goes on and one that faults
theorem test_witness_runs :
    (State.reset.run 1).2 = none ∧ ((State.construct [0#8, 0#8, 0#8, 0xEF#8]).run 1).2 =
      some (.undefinedInstruction 0#32 0xEF000000#32) := by decide

-- HostExecutesWithoutTestOrAdvance: an Undefined word, both kinds of advance, two words of one low part
theorem test_witness_host_execute :
    (decodeWord 0xEF000000#32).class = .undefined ∧ (decodeWord 0xE5812000#32).class = .loadStore ∧
    State.reset.passes (decodeWord 0xE5812000#32).cond = true ∧
    0xE5812000#32 &&& 0x0FFFFFFF#32 = 0x05812000#32 &&& 0x0FFFFFFF#32 := by decide

theorem test_witness_writesR15 :
    WritesR15 (.b .al 0) ∧ WritesR15 (.ldrImm .al ⟨true, true, false⟩ 1 15 0) ∧ WritesR15 (.strImm .al ⟨false, true, false⟩ 15 2 0) ∧
    ¬ WritesR15 (.strImm .al ⟨true, true, false⟩ 15 2 0) ∧ ¬ WritesR15 (.dp .al 0#26) := by
  simp [WritesR15, wbOf]

-- the statements about every step, and OnlyExecutedStoresChangeMemory's two cases
theorem test_witness_step : (nextOf (step State.reset)).isSome = true ∧ State.reset.passes (decodeWord State.reset.fetchWord).cond = false ∧
    (decodeWord ((State.construct [0#8, 0#8, 0x91#8, 0xE5#8]).fetchWord)).row = .ldrImm := by decide

-- StepKeepsTheCanonicalMemory, ReachableStatesHaveCanonicalMemory: RAM that is not empty
theorem test_witness_canonical : Memory.wf (start 0x02000108#32).ram = true ∧ (start 0x02000108#32).ram ≠ [] ∧
    (nextOf (stepWord (start 0x02000108#32) 0xE5812000#32)).isSome = true := by decide

theorem test_witness_reachable : Reachable (State.reset.hostAction (.storeWord 0x02000000#32 1#32)) :=
  .host _ (.construct [])

-- OnlyAGenericWriteOfR15ChangesTheStatus
theorem test_witness_host_action : ∀ v : Word, HostAction.setAddress 15 0#32 ≠ .setRegister 15 v := fun _ h => nomatch h

-- FirstStepRunsTheStartOfTheImage: an image shorter than a word
theorem test_witness_image : (0x0000BBAA#32 : Word).toNat = leNumber (fun i => [0xAA#8, 0xBB#8].getD i 0) 0 := by decide

end Sys2Proof.Tests
end

section
/-! The address-only path of R15 (10_state.md rules R27 and R28). -/

namespace Sys2Proof.Proofs

open Sys2Proof.Machine

/-- Reading R15 by the address-only path is masking what the generic path reads (R25, R27). -/
theorem getAddress_pc_eq_mask_get (s : State) : s.getAddress Reg.pc = s.get Reg.pc &&& Config.addrMask := by
  rw [State.getAddress_pc, State.get_pc]

/-- For a register other than R15 the two paths read alike (R27). -/
theorem getAddress_eq_get (s : State) {r : Reg} (h : r ≠ Reg.pc) : s.getAddress r = s.get r := by
  rw [State.getAddress_of_ne s h, State.get]

/-- The packed R15 after an address-only write of it (R28). -/
theorem get_pc_setAddress_pc (s : State) (v : Word) : (s.setAddress Reg.pc v).get Reg.pc = splicePc (s.get Reg.pc) v := by
  rw [State.get_pc, State.get_pc, State.slot_pc_setAddress, if_pos rfl]

/-- An address-only write of R15 leaves every slot but slot 15 (R28). -/
theorem slot_setAddress_pc_of_ne (s : State) (v : Word) {k : Fin 27} (h : k ≠ 15) :
    (s.setAddress Reg.pc v).slot k = s.slot k := by
  refine State.slot_setAddress_ne s v ?_
  rwa [phys_pc]

/-- Setting the program counter and reading it back yields the address bits of what was set (R28). -/
theorem getAddress_setAddress_pc (s : State) (v : Word) :
    (s.setAddress Reg.pc v).getAddress Reg.pc = v &&& Config.addrMask := by
  rw [getAddress_pc_eq_mask_get, get_pc_setAddress_pc, splicePc_addr]

/-- Setting the program counter keeps flags, bits 27:26 and mode (R28). -/
theorem status_setAddress_pc (s : State) (v : Word) :
    (s.setAddress Reg.pc v).get Reg.pc &&& Config.statusMask = s.get Reg.pc &&& Config.statusMask := by
  rw [get_pc_setAddress_pc, splicePc_status]

/-- Settles O10: a write of R15 splices the address bits of `v` into the packed R15, and the two masks tell its parts apart. -/
theorem addressOnlyPathOfR15 : Obligations.AddressOnlyPathOfR15 := by
  intro s v
  refine ⟨?read, ?write, ?readBack, ?statusKept, ?slotsKept, ?genericElsewhere⟩
  case read => exact getAddress_pc_eq_mask_get s
  case write => exact get_pc_setAddress_pc s v
  case readBack => exact getAddress_setAddress_pc s v
  case statusKept => exact status_setAddress_pc s v
  case slotsKept => exact fun k hk => slot_setAddress_pc_of_ne s v hk
  case genericElsewhere => exact fun r hr => ⟨getAddress_eq_get s hr, State.setAddress_eq_set s v hr⟩

end Sys2Proof.Proofs
end

section
/-! Address reduction and byte lanes (20_memory.md rules R51, R55 to R59). -/

namespace Sys2Proof.Proofs

open Sys2Proof.Machine Sys2Proof.Claims

/-- What stands behind an address depends on its reduced bits only (R51). -/
theorem backing_eq_of_addrMask_eq (s : State) {a a' : Word} (h : a &&& Config.addrMask = a' &&& Config.addrMask) :
    s.backing a = s.backing a' := by
  rw [State.backing, State.backing, ← locate_masked _ a, ← locate_masked _ a', h]

/-- A word store depends on the reduced bits of its address only (R51, R56). -/
theorem storeWord_eq_of_addrMask_eq (s : State) (v : Word) {a a' : Word}
    (h : a &&& Config.addrMask = a' &&& Config.addrMask) : s.storeWord a v = s.storeWord a' v := by
  simp only [State.storeWord, backing_eq_of_addrMask_eq s h]

/-- Apart from its lane, a byte load depends on the reduced bits of its address only (R51, R57). -/
theorem loadByte_eq_of_addrMask_eq (s : State) {a a' : Word} (h : a &&& Config.addrMask = a' &&& Config.addrMask)
    (hlane : laneOf a = laneOf a') : s.loadByte a = s.loadByte a' := by
  rw [State.loadByte, State.loadByte, s.loadWord_masked h, hlane]

/-- Apart from its lane, a byte store depends on the reduced bits of its address only (R51, R58). -/
theorem storeByte_eq_of_addrMask_eq (s : State) (b : Byte) {a a' : Word}
    (h : a &&& Config.addrMask = a' &&& Config.addrMask) (hlane : laneOf a = laneOf a') :
    s.storeByte a b = s.storeByte a' b := by
  rw [State.storeByte, State.storeByte, byteInLane, byteInLane, hlane, storeWord_eq_of_addrMask_eq s _ h]

/-- The four bytes from a reduced address on: their number is the reduced address plus the lane. -/
theorem toNat_reduced_add_lane (a : Word) {k : Nat} (hk : k < 4) :
    ((a &&& Config.addrMask) + BitVec.ofNat 32 k).toNat = 4 * (a.toNat / 4 % 2 ^ 24) + k := by
  rw [BitVec.toNat_add, toNat_addrMask, BitVec.toNat_ofNat]
  omega

/-- A lane's address reduces to its word's address (R51). -/
theorem reduced_add_lane_masked (a : Word) {k : Nat} (hk : k < 4) :
    ((a &&& Config.addrMask) + BitVec.ofNat 32 k) &&& Config.addrMask = a &&& Config.addrMask := by
  apply BitVec.eq_of_toNat_eq
  rw [toNat_addrMask, toNat_reduced_add_lane a hk, toNat_addrMask]
  omega

/-- The byte load `k` past a reduced address answers lane `k` of the word there (R57). -/
theorem loadByte_reduced_add_lane (s : State) (a : Word) {k : Nat} (hk : k < 4) :
    s.loadByte ((a &&& Config.addrMask) + BitVec.ofNat 32 k) = byteLane (s.loadWord a) k := by
  have hlane : laneOf ((a &&& Config.addrMask) + BitVec.ofNat 32 k) = k := by
    rw [laneOf_eq, toNat_reduced_add_lane a hk]
    omega
  rw [State.loadByte, hlane, s.loadWord_masked (reduced_add_lane_masked a hk)]

/-- A word is the little-endian number of its lanes (R59). -/
theorem toNat_eq_leNumber_lanes (w : Word) : w.toNat = leNumber (byteLane w) 0 := by
  conv_lhs => rw [← wordOfBytes_lanes w, toNat_wordOfBytes]
  rfl

/-- The number at four byte offsets depends on the bytes there only. -/
theorem leNumber_congr {f g : Nat → Byte} (h : ∀ k < 4, f k = g k) : leNumber f 0 = leNumber g 0 := by
  simp only [leNumber, Nat.zero_add, h 0 (by decide), h 1 (by decide), h 2 (by decide), h 3 (by decide)]

/-- A loaded word is the little-endian number of the four bytes from its reduced address on (R51, R59). -/
theorem toNat_loadWord_eq_leNumber (s : State) (a : Word) :
    (s.loadWord a).toNat = leNumber (fun k => s.loadByte ((a &&& Config.addrMask) + BitVec.ofNat 32 k)) 0 := by
  rw [toNat_eq_leNumber_lanes]
  exact leNumber_congr fun k hk => (loadByte_reduced_add_lane s a hk).symm

/-- Settles O16: every operation looks its address up after reduction, and the lane is the only other part a byte access sees. -/
theorem addressesAreReducedTo26AlignedBits : Obligations.AddressesAreReducedTo26AlignedBits := by
  intro s a a' v b h
  refine ⟨?loadWord, ?storeWord, ?bytes, ?littleEndian⟩
  case loadWord => exact s.loadWord_masked h
  case storeWord => exact storeWord_eq_of_addrMask_eq s v h
  case bytes =>
    intro hbits
    have hlane : laneOf a = laneOf a' := congrArg BitVec.toNat hbits
    exact ⟨loadByte_eq_of_addrMask_eq s h hlane, storeByte_eq_of_addrMask_eq s b h hlane⟩
  case littleEndian => exact toNat_loadWord_eq_leNumber s a

/-- Settles O17: a byte load takes a lane out of the word, and a lane is a quotient and remainder by powers of two. -/
theorem loadByteIsTheSelectedLane : Obligations.LoadByteIsTheSelectedLane := by
  intro s a
  rw [State.loadByte, toNat_byteLane, laneOf_eq]

end Sys2Proof.Proofs
end

section
/-! Decoding by class and by condition, and the Branch words as numbers (30_encoding.md rules R81 to R94). -/

namespace Sys2Proof.Proofs

open Sys2Proof.Claims

/-! ### What each class's decoder answers: an instruction of its class, with the word's condition (R81, R82) -/

theorem decodeBranch_class_cond (w : Word) : (decodeBranch w).class = .branch ∧ (decodeBranch w).cond = condField w := by
  rw [decodeBranch]
  split <;> exact ⟨rfl, rfl⟩

theorem decodeTransferImm_class_cond (w : Word) :
    (decodeTransferImm w).class = .loadStore ∧ (decodeTransferImm w).cond = condField w := by
  rw [decodeTransferImm]
  split <;> exact ⟨rfl, rfl⟩

theorem decodeTransferReg_class_cond (w : Word) :
    (decodeTransferReg w).class = .loadStore ∧ (decodeTransferReg w).cond = condField w := by
  rw [decodeTransferReg]
  split <;> exact ⟨rfl, rfl⟩

theorem decodeLoadStore_class_cond (w : Word) :
    (decodeLoadStore w).class = .loadStore ∧ (decodeLoadStore w).cond = condField w := by
  rw [decodeLoadStore]
  split
  · exact decodeTransferReg_class_cond w
  · exact decodeTransferImm_class_cond w

theorem decodeUndefined_class_cond (w : Word) :
    (decodeUndefined w).class = .undefined ∧ (decodeUndefined w).cond = condField w := by
  rw [decodeUndefined]
  split <;> exact ⟨rfl, rfl⟩

theorem decodeWord_class_cond (w : Word) : (decodeWord w).class = classify w ∧ (decodeWord w).cond = condField w := by
  rw [decodeWord]
  cases classify w with
  | branch => exact decodeBranch_class_cond w
  | dataProcessing => exact ⟨rfl, rfl⟩
  | loadStore => exact decodeLoadStore_class_cond w
  | undefined => exact decodeUndefined_class_cond w

/-- A word decodes to an instruction of the class it is classified as (R82). -/
theorem class_decodeWord (w : Word) : (decodeWord w).class = classify w := (decodeWord_class_cond w).1

/-- Whatever its class, a word's condition is its condition field (R81). -/
theorem cond_decodeWord (w : Word) : (decodeWord w).cond = condField w := (decodeWord_class_cond w).2

/-! ### The mask tests (R82) -/

/-- Words that agree under a mask agree under every part of it. -/
theorem and_eq_and_of_submask {w w' n m : Word} (h : w &&& n = w' &&& n) (hm : n &&& m = m) : w &&& m = w' &&& m := by
  rw [← hm, ← BitVec.and_assoc, h, BitVec.and_assoc]

/-- The masks of the three tests lie in bits 27:0, so the classification does not see the condition field (R82). -/
theorem classify_eq_of_low_bits_eq {w w' : Word} (h : w &&& 0x0FFFFFFF#32 = w' &&& 0x0FFFFFFF#32) :
    classify w = classify w' := by
  have h27_25 : w &&& 0x0E000000#32 = w' &&& 0x0E000000#32 := and_eq_and_of_submask h (by decide)
  have h27_26 : w &&& 0x0C000000#32 = w' &&& 0x0C000000#32 := and_eq_and_of_submask h (by decide)
  rw [classify, classify, h27_25, h27_26]

/-- Settles O3: the decoded class is `classify`, which is the chain of mask tests, and no mask reaches the condition field. -/
theorem decodeClassifiesByTheMaskTests : Obligations.DecodeClassifiesByTheMaskTests := by
  refine ⟨?maskTests, ?withoutCondition⟩
  case maskTests => exact class_decodeWord
  case withoutCondition =>
    intro w w' h
    rw [class_decodeWord, class_decodeWord, classify_eq_of_low_bits_eq h]

/-! ### The condition codes (R94) -/

/-- The 4-bit code of a condition is its number (R94). -/
theorem toNat_condToBits (c : Cond) : c.toBits.toNat = condCode c := by cases c <;> rfl

/-- The field holds the code of the condition it names, because codes and conditions correspond one to one (R94). -/
theorem condField_eq_iff (w : Word) (c : Cond) : condField w = c ↔ w.extractLsb' 28 4 = c.toBits := by
  constructor
  · rintro rfl
    rw [condField, Cond.toBits_ofBits]
  · intro h
    rw [condField, h, Cond.ofBits_toBits]

/-- Bits 31:28 as a number. -/
theorem toNat_condBits (w : Word) : (w.extractLsb' 28 4).toNat = w.toNat / 2 ^ 28 := by
  have hw := w.isLt
  rw [BitVec.extractLsb'_toNat, Nat.shiftRight_eq_div_pow]
  omega

/-- Settles O52: the condition is the condition field whatever the class, and the field's 16 codes are the numbers of the
conditions. -/
theorem conditionCodesDecode : Obligations.ConditionCodesDecode := by
  intro w c
  rw [cond_decodeWord, condField_eq_iff, ← BitVec.toNat_inj, toNat_condBits, toNat_condToBits]

/-! ### The Branch words as numbers (R84) -/

/-- The number of a Branch word: the number of each field, shifted to where the field begins (R84). -/
theorem toNat_encodeBranch (c : Cond) (link : Bool) {imm24 : Nat} (h : imm24 < 2 ^ 24) :
    (encodeBranch c link imm24).toNat = condCode c * 2 ^ 28 + 5 * 2 ^ 25 + link.toNat * 2 ^ 24 + imm24 := by
  have hclass : (0b101#3).toNat = 5 := rfl
  have hoffset : (BitVec.ofNat 24 imm24).toNat = imm24 := by rw [BitVec.toNat_ofNat, Nat.mod_eq_of_lt h]
  rw [encodeBranch, toNat_append_add, toNat_append_add, toNat_append_add, toNat_condToBits, hclass, BitVec.toNat_ofBool,
    hoffset]
  ring

/-- Settles O5: B and BL are the Branch words with the link flag clear and set. -/
theorem branchWordLayout : Obligations.BranchWordLayout := by
  intro c imm24 h
  exact ⟨toNat_encodeBranch c false h, toNat_encodeBranch c true h⟩

end Sys2Proof.Proofs
end

section
/-! The condition table and the frame of a skipped instruction (40_step_cycle.md rules R105, R106 and R109). -/

namespace Sys2Proof.Proofs

open Sys2Proof.Machine Sys2Proof.Claims

/-! ### The PC advance changes nothing but the program counter (R106, R109) -/

/-- The statements' R15 after a change of the program counter is the one an address-only write makes (R28). -/
theorem r15With_eq_splicePc (packed pc : Word) : r15With packed pc = splicePc packed pc := rfl

/-- The memory is its three fields: every byte read is a function of them (R52, R57). -/
theorem sameMemory_of_fields {s t : State} (hram : t.ram = s.ram) (hlow : t.romLow = s.romLow)
    (hrom : t.romImage = s.romImage) : SameMemory s t := by
  refine ⟨hram, hlow, hrom, fun a => ?_⟩
  rw [State.loadByte, State.loadByte, State.loadWord_congr hram hlow hrom]

/-- The PC advance leaves the memory (R109). -/
theorem sameMemory_retire (x : InFlight) : SameMemory x.st x.retire :=
  sameMemory_of_fields x.retire_ram x.retire_romLow x.retire_romImage

/-- The program counter after the advance is the one before it plus the increment (R109). -/
theorem slot_pc_retire_eq_r15With (x : InFlight) :
    x.retire.slot 15 = r15With (x.st.slot 15) (x.st.getAddress Reg.pc + if x.pcWritten then 8#32 else 4#32) := by
  have hinc : (if x.pcWritten then 8#32 else 4#32 : Word).toNat % 4 = 0 := by split <;> rfl
  rw [InFlight.pc_retire, r15With_eq_splicePc, State.getAddress_pc, splicePc_advance _ _ hinc]

/-- The PC advance changes the program counter only (R109). -/
theorem onlyPcChanges_retire (x : InFlight) :
    OnlyPcChanges x.st x.retire (x.st.getAddress Reg.pc + if x.pcWritten then 8#32 else 4#32) := by
  refine ⟨fun k hk => ?otherSlots, slot_pc_retire_eq_r15With x, sameMemory_retire x⟩
  case otherSlots => rw [InFlight.slot_retire, if_neg hk]

/-- Settles O21: what a skipped instruction answers is the PC advance of an instruction that has written nothing, R15 included,
so the increment is 4. -/
theorem failedConditionOnlyAdvancesThePc : Obligations.FailedConditionOnlyAdvancesThePc := by
  intro i s h
  exact ⟨(InFlight.start s).retire, exec_skipped h, onlyPcChanges_retire (InFlight.start s)⟩

/-! ### The condition table (R105) -/

/-- The condition of a word is the one its bits 31:28 number (R94, R104). -/
theorem condBits_eq_condCode (w : Word) : w.toNat / 2 ^ 28 = condCode (decodeWord w).cond :=
  (conditionCodesDecode w _).1 rfl

/-- Settles O20: bits 31:28 are the code of the decoded condition, so the table is compared with `conditionMet` one condition at a
time. -/
theorem conditionTable : Obligations.ConditionTable := by
  intro s w
  refine ⟨_, _, _, _, rfl, rfl, rfl, rfl, ?_⟩
  rw [condBits_eq_condCode, State.passes]
  cases (decodeWord w).cond
  case eq | cs | mi | vs => exact Iff.rfl
  case ne | cc | pl | vc => exact iff_of_eq (Bool.not_eq_true' _)
  case ge => exact beq_iff_eq
  case lt => exact bne_iff_ne
  case hi | ls | gt | le => simp [conditionMet, condCode, flagsOf]
  case al => exact iff_of_true rfl trivial
  case nv => exact iff_of_false Bool.false_ne_true id

end Sys2Proof.Proofs
end

section
/-! The Data-Processing stub and the Undefined class (43_data_processing_and_undefined.md rules R150 and R152). -/

namespace Sys2Proof.Proofs

open Sys2Proof.Machine Sys2Proof.Claims

/-! ### Decoding by row: the words of the rows that have no fields beside the condition (R90, R91, R97) -/

/-- In a word that belongs to a row, each bit of the row's mask is the row's (R97). -/
theorem getLsbD_of_accepts {r : Row} {w : Word} (h : r.accepts w = true) {i : Nat} (hi : r.mask.getLsbD i = true) :
    w.getLsbD i = r.pattern.getLsbD i := by
  have hbits : w &&& r.mask = r.pattern := beq_iff_eq.1 h
  rw [← hbits, BitVec.getLsbD_and, hi, Bool.and_true]

/-- Class bits 00: a Data-Processing word (R90). -/
theorem decodeWord_of_accepts_dp {w : Word} (h : Row.dp.accepts w = true) :
    decodeWord w = .dp (condField w) (w.extractLsb' 0 26) := by
  have h27 : w.getLsbD 27 = false := getLsbD_of_accepts h rfl
  have h26 : w.getLsbD 26 = false := getLsbD_of_accepts h rfl
  have hclass : classify w = .dataProcessing := by rw [classify_bits, h27, h26]; rfl
  rw [decodeWord, hclass, decodeDataProcessing]

/-- Class bits 100: an Undefined word that ignores 25 bits (R91). -/
theorem decodeWord_of_accepts_und100 {w : Word} (h : Row.und100.accepts w = true) :
    decodeWord w = .und100 (condField w) (w.extractLsb' 0 25) := by
  have h27 : w.getLsbD 27 = true := getLsbD_of_accepts h rfl
  have h26 : w.getLsbD 26 = false := getLsbD_of_accepts h rfl
  have h25 : w.getLsbD 25 = false := getLsbD_of_accepts h rfl
  have hclass : classify w = .undefined := by rw [classify_bits, h27, h26, h25]; rfl
  simp only [decodeWord, hclass, decodeUndefined, h26, Bool.false_eq_true, if_false]

/-- Class bits 11x: an Undefined word that ignores 26 bits (R91). -/
theorem decodeWord_of_accepts_und11x {w : Word} (h : Row.und11x.accepts w = true) :
    decodeWord w = .und11x (condField w) (w.extractLsb' 0 26) := by
  have h27 : w.getLsbD 27 = true := getLsbD_of_accepts h rfl
  have h26 : w.getLsbD 26 = true := getLsbD_of_accepts h rfl
  have hclass : classify w = .undefined := by rw [classify_bits, h27, h26]; rfl
  simp only [decodeWord, hclass, decodeUndefined, h26, if_true]

/-! ### Data-Processing (R150) -/

/-- Executed or skipped, a Data-Processing instruction is the PC advance of an instruction that has written nothing (R150). -/
theorem exec_dp (c : Cond) (ignored : BitVec 26) (s : State) :
    exec (.dp c ignored) s = .next (InFlight.start s).retire := by
  by_cases hp : s.passes c = true
  · exact exec_executes nofun hp
  · exact exec_skipped (Bool.eq_false_iff.2 hp)

/-- A Data-Processing instruction only advances the PC by 4 (R150). -/
theorem exec_dp_onlyPcChanges (c : Cond) (ignored : BitVec 26) (s : State) :
    ∃ t : State, exec (.dp c ignored) s = .next t ∧ OnlyPcChanges s t (s.getAddress 15 + 4#32) :=
  ⟨(InFlight.start s).retire, exec_dp c ignored s, onlyPcChanges_retire (InFlight.start s)⟩

/-- Settles O25: class bits 00 decode to DP, whose execute operation is nothing, so passing and failing the condition both leave
the PC advance alone. -/
theorem dataProcessingOnlyAdvancesThePc : Obligations.DataProcessingOnlyAdvancesThePc := by
  intro s
  refine ⟨?words, ?instructions⟩
  case words =>
    intro w hbits
    rw [decodeWord_of_accepts_dp (beq_iff_eq.2 hbits)]
    exact ⟨rfl, exec_dp_onlyPcChanges _ _ s⟩
  case instructions =>
    intro c ignored
    exact ⟨beq_iff_eq.1 (Laws.EncodedRow.dp c ignored), exec_dp_onlyPcChanges c ignored s⟩

/-! ### Undefined (R152) -/

theorem toNat_encode_und100 (c : Cond) (ignored : BitVec 25) :
    (encode (.und100 c ignored)).toNat = condCode c * 2 ^ 28 + 4 * 2 ^ 25 + ignored.toNat := by
  have hclass : (0b100#3).toNat = 4 := rfl
  rw [encode, toNat_append_add, toNat_append_add, toNat_condToBits, hclass]
  ring

theorem toNat_encode_und11x (c : Cond) (ignored : BitVec 26) :
    (encode (.und11x c ignored)).toNat = condCode c * 2 ^ 28 + 3 * 2 ^ 26 + ignored.toNat := by
  have hclass : (0b11#2).toNat = 3 := rfl
  rw [encode, toNat_append_add, toNat_append_add, toNat_condToBits, hclass]
  ring

theorem decodeWord_encode_und100 (c : Cond) (ignored : BitVec 25) :
    decodeWord (encode (.und100 c ignored)) = .und100 c ignored := by
  obtain ⟨hcond, -, hignored⟩ := encodeUnd100_fields c ignored
  rw [decodeWord_of_accepts_und100 (Laws.EncodedRow.und100 c ignored), encode, (condField_eq_iff _ c).2 hcond, hignored]

theorem decodeWord_encode_und11x (c : Cond) (ignored : BitVec 26) :
    decodeWord (encode (.und11x c ignored)) = .und11x c ignored := by
  obtain ⟨hcond, -, hignored⟩ := encodeStub_fields c 0b11#2 ignored
  rw [decodeWord_of_accepts_und11x (Laws.EncodedRow.und11x c ignored), encode, (condField_eq_iff _ c).2 hcond, hignored]

/-- Settles O26: the word is the instruction's encoding, which decodes back to it; `exec` raises with that word, or skips as any
instruction with a failed condition does. -/
theorem undefinedRaisesOrIsSkipped : Obligations.UndefinedRaisesOrIsSkipped := by
  intro c s
  refine ⟨fun ignored => ?class100, fun ignored => ?class11x⟩
  case class100 =>
    have hdecode := decodeWord_encode_und100 c ignored
    exact ⟨encode (.und100 c ignored), toNat_encode_und100 c ignored, hdecode, congrArg Instr.class hdecode,
      exec_raises (i := .und100 c ignored) rfl, failedConditionOnlyAdvancesThePc (.und100 c ignored) s⟩
  case class11x =>
    have hdecode := decodeWord_encode_und11x c ignored
    exact ⟨encode (.und11x c ignored), toNat_encode_und11x c ignored, hdecode, congrArg Instr.class hdecode,
      exec_raises (i := .und11x c ignored) rfl, failedConditionOnlyAdvancesThePc (.und11x c ignored) s⟩

end Sys2Proof.Proofs
end

section
/-! What every step keeps: one induction over the writes an instruction can make (40_step_cycle.md rules R107 to R109). -/

namespace Sys2Proof.Proofs

open Sys2Proof.Machine Sys2Proof.Claims

/-! ### The writes an instruction makes -/

/-- The instruction is an STR or STRB in either offset form (42_load_store.md R134, R135). -/
def IsStore (i : Instr) : Prop := i.row = .strImm ∨ i.row = .strReg ∨ i.row = .strbImm ∨ i.row = .strbReg

/-- The property of states survives every write the instruction can make: the address-only write of any register, the generic
write of R14, and the word store if the instruction is a store. -/
structure KeptByWrites (i : Instr) (P : State → Prop) : Prop where
  setAddress : ∀ (s : State) (r : Reg) (v : Word), P s → P (s.setAddress r v)
  link : ∀ (s : State) (v : Word), P s → P (s.set Reg.lr v)
  storeWord : IsStore i → ∀ (s : State) (a v : Word), P s → P (s.storeWord a v)

section keeps

variable {i : Instr} {P : State → Prop} (h : KeptByWrites i P)

include h

theorem KeptByWrites.writeBack (ix : Indexing) (rn : Reg) (ea soff : Word) {x : InFlight} (hx : P x.st) :
    P (writeBack ix rn ea soff x).st := by
  rcases writeBack_cases ix rn ea soff x with ⟨-, e⟩ | ⟨-, e⟩
  · rw [e]; exact h.setAddress _ _ _ hx
  · rwa [e]

theorem KeptByWrites.transfer (ix : Indexing) (rn : Reg) (off : Word) {access : Word → InFlight → InFlight} {x : InFlight}
    (haccess : ∀ ea, P (access ea x).st) : P (transfer ix rn off access x).st :=
  h.writeBack ix rn _ _ (haccess _)

/-- The execute operation is made of such writes. -/
theorem KeptByWrites.executeOperation {x : InFlight} (hx : P x.st) : P (executeOperation i x).st := by
  cases i
  case b => exact h.setAddress x.st Reg.pc _ hx
  case bl => exact h.setAddress (linkRegister x).st Reg.pc _ (h.link x.st _ hx)
  case ldrImm | ldrReg | ldrbImm | ldrbReg => exact h.transfer _ _ _ fun ea => h.setAddress _ _ _ hx
  case strImm | strReg | strbImm | strbReg =>
    exact h.transfer _ _ _ fun ea => h.storeWord (by simp [IsStore, Instr.row]) _ _ _ hx
  case dp | und100 | und11x => exact hx

/-- The PC advance is an address-only write (R109). -/
theorem KeptByWrites.retire {x : InFlight} (hx : P x.st) : P x.retire := h.setAddress _ _ _ hx

/-- What the writes keep, a completed instruction keeps. -/
theorem KeptByWrites.exec {s t : State} (hs : P s) (ht : exec i s = .next t) : P t := by
  rcases exec_cases ht with ⟨-, rfl⟩ | ⟨-, -, rfl⟩
  · exact h.retire hs
  · exact h.retire (h.executeOperation hs)

end keeps

/-- What the writes of every instruction keep, every step keeps. -/
theorem step_keeps {P : State → Prop} (h : ∀ i : Instr, KeptByWrites i P) {s t : State} (hs : P s) (ht : step s = .next t) :
    P t :=
  (h _).exec hs ht

/-! ### Flags, bits 27:26, mode, `rom_low` and the ROM image -/

/-- An address-only write keeps the status bits of R15 (10_state.md R28). -/
theorem status_setAddress (s : State) (r : Reg) (v : Word) : (s.setAddress r v).status = s.status := by
  rw [State.status, State.slot_pc_setAddress]
  split
  · exact splicePc_status _ _
  · rfl

/-- A generic write of a register other than R15 keeps the status bits of R15 (10_state.md R26). -/
theorem status_set (s : State) {r : Reg} (v : Word) (hr : r ≠ Reg.pc) : (s.set r v).status = s.status := by
  rw [State.status, State.slot_pc_set s v hr, State.status]

theorem status_storeWord (s : State) (a v : Word) : (s.storeWord a v).status = s.status := by
  rw [State.status, State.slot_storeWord, State.status]

/-- The two states agree in the status bits of R15, in `rom_low` and in the ROM image. -/
def SameStatusAndMap (s t : State) : Prop := t.status = s.status ∧ t.romLow = s.romLow ∧ t.romImage = s.romImage

theorem keptByWrites_sameStatusAndMap (i : Instr) (s : State) : KeptByWrites i (SameStatusAndMap s) where
  setAddress t r v ht := by
    rwa [SameStatusAndMap, status_setAddress, State.setAddress_romLow, State.setAddress_romImage]
  link t v ht := by
    rwa [SameStatusAndMap, status_set t v (by decide), State.set_romLow, State.set_romImage]
  storeWord _ t a v ht := by
    rwa [SameStatusAndMap, status_storeWord, State.storeWord_romLow, State.storeWord_romImage]

/-- The bits of R15 outside the PC are read from the status bits. -/
theorem getLsbD_status (s : State) {j : Nat} (hj : j < 2 ∨ 26 ≤ j) : s.status.getLsbD j = (s.slot 15).getLsbD j := by
  rw [State.status, BitVec.getLsbD_and, Config.statusMask_bit]
  by_cases h32 : j < 32
  · have hout : ¬(2 ≤ j ∧ j < 26) := by omega
    rw [← Bool.decide_and]
    simp [h32, hout]
  · rw [BitVec.getLsbD_of_ge _ _ (by omega), Bool.false_and]

/-- The mode is a function of the status bits (10_state.md R24). -/
theorem mode_eq_of_status_eq {s t : State} (h : t.status = s.status) : t.mode = s.mode := by
  have hbits : (t.slot 15).extractLsb' 0 2 = (s.slot 15).extractLsb' 0 2 := by
    apply BitVec.eq_of_getLsbD_eq
    intro j hj
    rw [BitVec.getLsbD_extractLsb', BitVec.getLsbD_extractLsb', Nat.zero_add, ← getLsbD_status t (.inl hj), h,
      getLsbD_status s (.inl hj)]
  rw [State.mode, State.mode, modeOf, modeOf, hbits]

/-- Whether a condition passes is a function of the status bits (40_step_cycle.md R105). -/
theorem passes_eq_of_status_eq {s t : State} (h : t.status = s.status) (c : Cond) : t.passes c = s.passes c := by
  have hbit : ∀ j, 26 ≤ j → (t.slot 15).getLsbD j = (s.slot 15).getLsbD j := fun j hj => by
    rw [← getLsbD_status t (.inr hj), h, getLsbD_status s (.inr hj)]
  simp only [State.passes, State.get_pc, flagsOf, hbit 31 (by decide), hbit 30 (by decide), hbit 29 (by decide),
    hbit 28 (by decide)]

/-- Settles O42: no write an instruction can make reaches the status bits, `rom_low` or the image; mode and conditions are read
from the status bits. -/
theorem noStepChangesStatusOrMap : Obligations.NoStepChangesStatusOrMap := by
  intro s t ht
  have hkept : SameStatusAndMap s t := step_keeps (fun i => keptByWrites_sameStatusAndMap i s) ⟨rfl, rfl, rfl⟩ ht
  obtain ⟨hstatus, hlow, himage⟩ := hkept
  exact ⟨hstatus, mode_eq_of_status_eq hstatus, passes_eq_of_status_eq hstatus, hlow, himage⟩

/-! ### The canonical form of RAM (log 25) -/

/-- The register writes do not touch RAM, and a word store keeps its canonical form. -/
theorem keptByWrites_inv (i : Instr) : KeptByWrites i State.Inv where
  setAddress s r v hs := by rwa [State.Inv, State.setAddress_ram]
  link s v hs := hs
  storeWord _ s a v hs := State.wf_storeWord a v hs

/-- Settles O45: register writes leave RAM, and a word store keeps its canonical form. -/
theorem stepKeepsTheCanonicalMemory : Obligations.StepKeepsTheCanonicalMemory :=
  fun _ _ hs ht => step_keeps keptByWrites_inv hs ht

/-- Settles O47: construction lists no RAM byte. -/
theorem constructionHasCanonicalMemory : Obligations.ConstructionHasCanonicalMemory :=
  ⟨rfl, fun _ => rfl⟩

/-- A host operation between steps keeps the canonical form. -/
theorem inv_hostAction {s : State} (hs : s.Inv) (a : HostAction) : (s.hostAction a).Inv := by
  cases a with
  | setRegister r v => exact hs
  | setAddress r v => rwa [State.Inv, State.hostAction, State.setAddress_ram]
  | storeWord addr v => exact State.wf_storeWord addr v hs
  | storeByte addr b => exact State.wf_storeWord addr _ hs
  | execute word => exact (keptByWrites_inv (decodeWord word)).executeOperation (x := InFlight.start s) hs
  | driveRomLow level => exact hs

/-- Settles O46: by induction on how the state is reached. -/
theorem reachableStatesHaveCanonicalMemory : Obligations.ReachableStatesHaveCanonicalMemory := by
  intro s hs
  induction hs with
  | construct image => exact constructionHasCanonicalMemory.2 image
  | step _ ht ih => exact stepKeepsTheCanonicalMemory _ _ ih ht
  | host a _ ih => exact inv_hostAction ih a

/-! ### Memory outside the stores, and the status between steps -/

theorem keptByWrites_sameMemory {i : Instr} (hi : ¬ IsStore i) (s : State) : KeptByWrites i (SameMemory s) where
  setAddress t r v ht := by
    obtain ⟨hram, hlow, himage, -⟩ := ht
    exact sameMemory_of_fields (by simpa) (by simpa) (by simpa)
  link t v ht := ht
  storeWord hstore := absurd hstore hi

/-- Settles O44: a skipped instruction makes one write, the PC advance, and an executed one that is not a store makes only register
writes. -/
theorem onlyExecutedStoresChangeMemory : Obligations.OnlyExecutedStoresChangeMemory := by
  intro s t ht hor
  rcases exec_cases ht with ⟨-, rfl⟩ | ⟨hp, -, -⟩
  case inl => exact sameMemory_retire (InFlight.start s)
  case inr =>
    rcases hor with hfail | ⟨h1, h2, h3, h4⟩
    · exact absurd hp (by simp [hfail])
    · have hi : ¬ IsStore (decodeWord s.fetchWord) := by
        rintro (h | h | h | h)
        exacts [h1 h, h2 h, h3 h, h4 h]
      exact (keptByWrites_sameMemory hi s).exec (sameMemory_of_fields rfl rfl rfl) ht

/-- Settles O48: of the host's operations, the generic write of R15 is the one that is not among the writes of instructions. -/
theorem onlyAGenericWriteOfR15ChangesTheStatus : Obligations.OnlyAGenericWriteOfR15ChangesTheStatus := by
  intro s a ha
  have hstatus : (s.hostAction a).status = s.status := by
    cases a with
    | setRegister r v => exact status_set s v fun hr => ha v (by rw [hr])
    | setAddress r v => exact status_setAddress s r v
    | storeWord addr v => exact status_storeWord s addr v
    | storeByte addr b => exact status_storeWord s addr _
    | execute word =>
      exact ((keptByWrites_sameStatusAndMap (decodeWord word) s).executeOperation (x := InFlight.start s) ⟨rfl, rfl, rfl⟩).1
    | driveRomLow level => rfl
  exact ⟨hstatus, mode_eq_of_status_eq hstatus⟩

/-! ### Hidden slots (42_load_store.md section 5) -/

/-- The second state is of the first's mode and keeps every slot this mode hides. -/
def ModeAndHiddenSlotsKept (s t : State) : Prop := t.mode = s.mode ∧ HiddenSlotsKept s t

/-- A register write goes to the slot the mode shows under the register's number (10_state.md R22). -/
theorem keptByWrites_hiddenSlots (i : Instr) (s : State) : KeptByWrites i (ModeAndHiddenSlotsKept s) where
  setAddress t r v ht := by
    obtain ⟨hmode, hslots⟩ := ht
    refine ⟨by rw [State.mode_setAddress, hmode], fun k hk => ?_⟩
    rw [State.slot_setAddress_ne t v (hmode ▸ hk r), hslots k hk]
  link t v ht := by
    obtain ⟨hmode, hslots⟩ := ht
    refine ⟨by rw [State.mode_set t v (by decide), hmode], fun k hk => ?_⟩
    rw [State.slot_set, if_neg (hmode ▸ hk Reg.lr), hslots k hk]
  storeWord _ t a v ht := by
    obtain ⟨hmode, hslots⟩ := ht
    refine ⟨by rw [State.mode_storeWord, hmode], fun k hk => ?_⟩
    rw [State.slot_storeWord, hslots k hk]

/-- A completed instruction keeps the hidden slots. -/
theorem exec_hiddenSlotsKept {i : Instr} {s t : State} (ht : exec i s = .next t) : HiddenSlotsKept s t :=
  ((keptByWrites_hiddenSlots i s).exec ⟨rfl, fun _ _ => rfl⟩ ht).2

/-- Settles O43: every register write goes to a slot the mode shows, and no write changes the mode. -/
theorem noStepWritesAHiddenSlot : Obligations.NoStepWritesAHiddenSlot := fun _ _ ht => exec_hiddenSlotsKept ht

end Sys2Proof.Proofs
end

section
/-! Noninterference: no instruction reads a slot its mode hides (42_load_store.md section 5, 60_exceptions.md section 5). -/

namespace Sys2Proof.Proofs

open Sys2Proof.Machine Sys2Proof.Claims

/-! ### Reads after writes, by register (10_state.md R22 to R28) -/

/-- What each register reads after an address-only write (R25, R28). -/
theorem get_setAddress (s : State) (r : Reg) (v : Word) (r' : Reg) :
    (s.setAddress r v).get r' = if r' = r then (if r = Reg.pc then splicePc (s.get Reg.pc) v else v) else s.get r' := by
  rw [State.get, State.mode_setAddress, State.slot_setAddress, State.get_pc]
  simp only [phys_inj, State.get]

/-- What each register reads after a generic write of a register other than R15 (R25, R26). -/
theorem get_set (s : State) {r : Reg} (v : Word) (hr : r ≠ Reg.pc) (r' : Reg) :
    (s.set r v).get r' = if r' = r then v else s.get r' := by
  rw [State.get, State.mode_set s v hr, State.slot_set]
  simp only [phys_inj, State.get]

@[simp] theorem get_storeWord (s : State) (a v : Word) (r : Reg) : (s.storeWord a v).get r = s.get r := by
  rw [State.get, State.mode_storeWord, State.slot_storeWord, State.get]

/-- RAM after a word store: the word at the address's RAM offset is written, where there is one (20_memory.md R52, R56). -/
theorem ram_storeWord (s : State) (a v : Word) :
    (s.storeWord a v).ram = (s.ramOffset a).elim s.ram fun o => Memory.writeWord s.ram o v := by
  rcases s.storeWord_cases a v with ⟨o, ho, e⟩ | ⟨hn, e⟩
  · rw [e, ho, Option.elim_some]
  · rw [e, hn, Option.elim_none]

end Sys2Proof.Proofs

namespace Sys2Proof.Claims

open Sys2Proof.Machine Sys2Proof.Proofs

/-! ### States with one view are read alike -/

section view

variable {s s' : State} (h : SameView s s')

include h

theorem SameView.get (r : Reg) : s.get r = s'.get r := h.1 r

theorem SameView.slotPc : s.slot 15 = s'.slot 15 := by
  rw [← State.get_pc, ← State.get_pc, h.get]

theorem SameView.getAddress (r : Reg) : s.getAddress r = s'.getAddress r := by
  rw [State.getAddress, State.getAddress, h.slotPc, h.get]

theorem SameView.passes (c : Cond) : s.passes c = s'.passes c := by
  rw [State.passes, State.passes, h.get]

theorem SameView.fetchAddr : s.fetchAddr = s'.fetchAddr := State.fetchAddr_congr h.slotPc

theorem SameView.loadWord (a : Word) : s.loadWord a = s'.loadWord a := by
  obtain ⟨-, hram, hlow, himage⟩ := h
  exact State.loadWord_congr hram hlow himage a

theorem SameView.fetchWord : s.fetchWord = s'.fetchWord := by
  rw [State.fetchWord, State.fetchWord, h.fetchAddr, h.loadWord]

theorem SameView.ramOffset (a : Word) : s.ramOffset a = s'.ramOffset a := by
  obtain ⟨-, -, hlow, -⟩ := h
  rw [State.ramOffset, State.ramOffset, State.backing, State.backing, hlow]

/-! ### The writes of instructions keep one view -/

theorem SameView.setAddress (r : Reg) (v : Word) : SameView (s.setAddress r v) (s'.setAddress r v) := by
  refine ⟨fun r' => ?_, ?_⟩
  · rw [get_setAddress, get_setAddress, h.get, h.get]
  · simpa using h.2

theorem SameView.set {r : Reg} (hr : r ≠ Reg.pc) (v : Word) : SameView (s.set r v) (s'.set r v) := by
  refine ⟨fun r' => ?_, h.2⟩
  rw [get_set s v hr, get_set s' v hr, h.get]

theorem SameView.storeWord (a v : Word) : SameView (s.storeWord a v) (s'.storeWord a v) := by
  have hoffset := h.ramOffset a
  obtain ⟨hget, hram, hlow, himage⟩ := h
  refine ⟨fun r => by rw [get_storeWord, get_storeWord, hget], ?_, by simpa, by simpa⟩
  rw [ram_storeWord, ram_storeWord, hoffset, hram]

end view

end Sys2Proof.Claims

namespace Sys2Proof.Proofs

open Sys2Proof.Machine Sys2Proof.Claims

/-- Two instructions in flight that no instruction of their mode can tell apart. -/
def SameFlight (x x' : InFlight) : Prop := SameView x.st x'.st ∧ x.pcWritten = x'.pcWritten

section flight

variable {x x' : InFlight} (h : SameFlight x x')

include h

theorem SameFlight.setAddress {v v' : Word} (hv : v = v') (r : Reg) : SameFlight (x.setAddress r v) (x'.setAddress r v') := by
  subst hv
  exact ⟨h.1.setAddress r v, by simp [h.2]⟩

theorem SameFlight.branchTo (imm24 : Nat) : SameFlight (branchTo imm24 x) (branchTo imm24 x') :=
  h.setAddress (by rw [h.1.getAddress]) Reg.pc

theorem SameFlight.linkRegister : SameFlight (linkRegister x) (linkRegister x') := by
  rw [Machine.linkRegister, Machine.linkRegister, h.1.getAddress]
  exact ⟨h.1.set (by decide) _, by simp [h.2]⟩

theorem SameFlight.loadWordInto (rd : Reg) (ea : Word) : SameFlight (loadWordInto rd ea x) (loadWordInto rd ea x') :=
  h.setAddress (h.1.loadWord ea) rd

theorem SameFlight.loadByteInto (rd : Reg) (ea : Word) : SameFlight (loadByteInto rd ea x) (loadByteInto rd ea x') :=
  h.setAddress (by rw [State.loadByte, State.loadByte, h.1.loadWord]) rd

theorem SameFlight.storeWordFrom (rd : Reg) (ea : Word) : SameFlight (storeWordFrom rd ea x) (storeWordFrom rd ea x') := by
  rw [Machine.storeWordFrom, Machine.storeWordFrom, h.1.getAddress]
  exact ⟨h.1.storeWord _ _, h.2⟩

theorem SameFlight.storeByteFrom (rd : Reg) (ea : Word) : SameFlight (storeByteFrom rd ea x) (storeByteFrom rd ea x') := by
  rw [Machine.storeByteFrom, Machine.storeByteFrom, h.1.getAddress]
  exact ⟨h.1.storeWord _ _, h.2⟩

theorem SameFlight.writeBack (ix : Indexing) (rn : Reg) (ea soff : Word) :
    SameFlight (writeBack ix rn ea soff x) (writeBack ix rn ea soff x') := by
  rw [Machine.writeBack, Machine.writeBack]
  split
  · exact h.setAddress rfl rn
  · exact h

theorem SameFlight.transfer (ix : Indexing) (rn : Reg) {off off' : Word} (hoff : off = off')
    {access : Word → InFlight → InFlight} (haccess : ∀ ea, SameFlight (access ea x) (access ea x')) :
    SameFlight (transfer ix rn off access x) (transfer ix rn off' access x') := by
  subst hoff
  simp only [Machine.transfer, h.1.getAddress]
  exact (haccess _).writeBack ix rn _ _

theorem SameFlight.regOffset (sh : ShiftedReg) : regOffset x.st sh = regOffset x'.st sh := by
  rw [Machine.regOffset, Machine.regOffset, h.1.getAddress]

/-- An execute operation reads only what the view shows, so it keeps one view (R107). -/
theorem SameFlight.executeOperation (i : Instr) : SameFlight (executeOperation i x) (executeOperation i x') := by
  cases i
  case b => exact h.branchTo _
  case bl => exact h.linkRegister.branchTo _
  case strImm => exact h.transfer _ _ rfl fun ea => h.storeWordFrom _ ea
  case ldrImm => exact h.transfer _ _ rfl fun ea => h.loadWordInto _ ea
  case strbImm => exact h.transfer _ _ rfl fun ea => h.storeByteFrom _ ea
  case ldrbImm => exact h.transfer _ _ rfl fun ea => h.loadByteInto _ ea
  case strReg => exact h.transfer _ _ (h.regOffset _) fun ea => h.storeWordFrom _ ea
  case ldrReg => exact h.transfer _ _ (h.regOffset _) fun ea => h.loadWordInto _ ea
  case strbReg => exact h.transfer _ _ (h.regOffset _) fun ea => h.storeByteFrom _ ea
  case ldrbReg => exact h.transfer _ _ (h.regOffset _) fun ea => h.loadByteInto _ ea
  case dp | und100 | und11x => exact h

theorem SameFlight.retire : SameView x.retire x'.retire := by
  rw [InFlight.retire, InFlight.retire, h.1.getAddress, h.2]
  exact h.1.setAddress _ _

end flight

/-- An instruction executed in two states with one view completes in both, with one view again, or raises one fault in both
(40_step_cycle.md R106, R107, R152). -/
theorem exec_sameView (i : Instr) {s s' : State} (h : SameView s s') :
    (∃ t t', exec i s = .next t ∧ exec i s' = .next t' ∧ SameView t t') ∨
      (∃ f, exec i s = .fault f ∧ exec i s' = .fault f) := by
  have hstart : SameFlight (InFlight.start s) (InFlight.start s') := ⟨h, rfl⟩
  cases hp : s.passes i.cond
  case false => exact .inl ⟨_, _, exec_skipped hp, exec_skipped (h.passes _ ▸ hp), hstart.retire⟩
  case true =>
    have hp' : s'.passes i.cond = true := h.passes _ ▸ hp
    by_cases hc : i.class = .undefined
    · exact .inr ⟨_, exec_raises hc hp, h.fetchAddr ▸ exec_raises hc hp'⟩
    · exact .inl ⟨_, _, exec_executes hc hp, exec_executes hc hp', (hstart.executeOperation i).retire⟩

/-- Settles O12: the two steps decode one word and execute one instruction alike, and no step writes a hidden slot. -/
theorem hiddenBanksCannotBeObserved : Obligations.HiddenBanksCannotBeObserved := by
  intro s s' h
  rw [step_eq, step_eq, ← h.fetchWord]
  rcases exec_sameView (decodeWord s.fetchWord) h with ⟨t, t', ht, ht', hview⟩ | ⟨f, hf, hf'⟩
  · rw [ht, ht']
    exact ⟨hview, exec_hiddenSlotsKept ht, exec_hiddenSlotsKept ht'⟩
  · rw [hf, hf']

end Sys2Proof.Proofs
end

section
/-! Decoder and encoder are inverse to each other, the rows partition the words, and the Load/Store words as numbers
(30_encoding.md rules R82 to R97). -/

namespace Sys2Proof.Proofs

open Sys2Proof.Claims

/-! ### Load/Store instructions by their form bits (R86)

`B` (bit 22) and `L` (bit 20) select one of four mnemonics in each offset form. With these two functions a statement about the four
is one statement over the two bits. -/

/-- The Load/Store instruction with an immediate offset that the bits `B` and `L` select. -/
def immTransfer (byte load : Bool) (c : Cond) (ix : Indexing) (rn rd : Reg) (imm12 : Nat) : Instr :=
  match byte, load with
  | false, false => .strImm c ix rn rd imm12
  | false, true => .ldrImm c ix rn rd imm12
  | true, false => .strbImm c ix rn rd imm12
  | true, true => .ldrbImm c ix rn rd imm12

/-- The Load/Store instruction with a register offset that the bits `B` and `L` select. -/
def regTransfer (byte load : Bool) (c : Cond) (ix : Indexing) (rn rd : Reg) (sh : ShiftedReg) : Instr :=
  match byte, load with
  | false, false => .strReg c ix rn rd sh
  | false, true => .ldrReg c ix rn rd sh
  | true, false => .strbReg c ix rn rd sh
  | true, true => .ldrbReg c ix rn rd sh

theorem encode_immTransfer (byte load : Bool) (c : Cond) (ix : Indexing) (rn rd : Reg) (imm12 : Nat) :
    encode (immTransfer byte load c ix rn rd imm12) = encodeTransfer c false byte load ix rn rd (BitVec.ofNat 12 imm12) := by
  cases byte <;> cases load <;> rfl

theorem encode_regTransfer (byte load : Bool) (c : Cond) (ix : Indexing) (rn rd : Reg) (sh : ShiftedReg) :
    encode (regTransfer byte load c ix rn rd sh) = encodeTransfer c true byte load ix rn rd sh.toBits := by
  cases byte <;> cases load <;> rfl

theorem decodeTransferImm_eq (w : Word) :
    decodeTransferImm w = immTransfer (w.getLsbD 22) (w.getLsbD 20) (condField w) (indexingField w) (rnField w) (rdField w)
      (imm12Field w) := by
  rw [decodeTransferImm]
  cases w.getLsbD 22 <;> cases w.getLsbD 20 <;> rfl

theorem decodeTransferReg_eq (w : Word) :
    decodeTransferReg w = regTransfer (w.getLsbD 22) (w.getLsbD 20) (condField w) (indexingField w) (rnField w) (rdField w)
      (shiftedRegField w) := by
  rw [decodeTransferReg]
  cases w.getLsbD 22 <;> cases w.getLsbD 20 <;> rfl

theorem wellFormed_immTransfer (byte load : Bool) (c : Cond) (ix : Indexing) (rn rd : Reg) (imm12 : Nat) :
    (immTransfer byte load c ix rn rd imm12).wellFormed = imm12Fits imm12 := by
  cases byte <;> cases load <;> rfl

theorem wellFormed_regTransfer (byte load : Bool) (c : Cond) (ix : Indexing) (rn rd : Reg) (sh : ShiftedReg) :
    (regTransfer byte load c ix rn rd sh).wellFormed = sh.fits := by
  cases byte <;> cases load <;> rfl

/-! ### The classes as values of the class bits (R83) -/

/-- A field of one bit. -/
theorem extractLsb'_one (w : Word) (i : Nat) : w.extractLsb' i 1 = BitVec.ofBool (w.getLsbD i) := by
  apply BitVec.eq_of_getLsbD_eq
  intro j hj
  obtain rfl : j = 0 := by omega
  simp

/-- Bits 27:25, one by one. -/
theorem classBits_eq (w : Word) :
    w.extractLsb' 25 3 = BitVec.ofBool (w.getLsbD 27) ++ BitVec.ofBool (w.getLsbD 26) ++ BitVec.ofBool (w.getLsbD 25) := by
  simp (disch := rfl) only [← extractLsb'_one, BitVec.extractLsb'_append_extractLsb'_eq_extractLsb']

/-- Bits 27:26, one by one. -/
theorem majorBits_eq (w : Word) : w.extractLsb' 26 2 = BitVec.ofBool (w.getLsbD 27) ++ BitVec.ofBool (w.getLsbD 26) := by
  simp (disch := rfl) only [← extractLsb'_one, BitVec.extractLsb'_append_extractLsb'_eq_extractLsb']

theorem classify_eq_branch_iff (w : Word) : classify w = .branch ↔ w.extractLsb' 25 3 = 0b101#3 := by
  rw [classify_bits, classBits_eq]
  cases w.getLsbD 27 <;> cases w.getLsbD 26 <;> cases w.getLsbD 25 <;> decide

theorem classify_eq_dataProcessing_iff (w : Word) : classify w = .dataProcessing ↔ w.extractLsb' 26 2 = 0b00#2 := by
  rw [classify_bits, majorBits_eq]
  cases w.getLsbD 27 <;> cases w.getLsbD 26 <;> cases w.getLsbD 25 <;> decide

theorem classify_eq_loadStore_iff (w : Word) : classify w = .loadStore ↔ w.extractLsb' 26 2 = 0b01#2 := by
  rw [classify_bits, majorBits_eq]
  cases w.getLsbD 27 <;> cases w.getLsbD 26 <;> cases w.getLsbD 25 <;> decide

/-- The Undefined class is two values of the class bits, told apart by bit 26 (R91). -/
theorem undefined_classBits {w : Word} (h : classify w = .undefined) :
    if w.getLsbD 26 then w.extractLsb' 26 2 = 0b11#2 else w.extractLsb' 25 3 = 0b100#3 := by
  revert h
  rw [classify_bits, majorBits_eq, classBits_eq]
  cases w.getLsbD 27 <;> cases w.getLsbD 26 <;> cases w.getLsbD 25 <;> decide

/-! ### A word is made of its fields -/

theorem condField_toBits (w : Word) : (condField w).toBits = w.extractLsb' 28 4 := Cond.toBits_ofBits _

theorem regBits_rnField (w : Word) : regBits (rnField w) = w.extractLsb' 16 4 := regBits_regOfBits _

theorem regBits_rdField (w : Word) : regBits (rdField w) = w.extractLsb' 12 4 := regBits_regOfBits _

/-- A Branch word is the encoding of its fields (R84). -/
theorem encodeBranch_fields {w : Word} (h : w.extractLsb' 25 3 = 0b101#3) :
    encodeBranch (condField w) (w.getLsbD 24) (w.extractLsb' 0 24).toNat = w := by
  rw [encodeBranch, condField_toBits, ← h, ← extractLsb'_one, BitVec.ofNat_toNat, BitVec.setWidth_eq]
  simp (disch := rfl) only [BitVec.extractLsb'_append_extractLsb'_eq_extractLsb']
  exact BitVec.extractLsb'_eq_self

/-- A Load/Store word is the encoding of its fields (R86). -/
theorem encodeTransfer_fields {w : Word} (h : w.extractLsb' 26 2 = 0b01#2) :
    encodeTransfer (condField w) (w.getLsbD 25) (w.getLsbD 22) (w.getLsbD 20) (indexingField w) (rnField w) (rdField w)
      (w.extractLsb' 0 12) = w := by
  rw [encodeTransfer, condField_toBits, regBits_rnField, regBits_rdField, indexingField, ← h]
  simp (disch := rfl) only [← extractLsb'_one, BitVec.extractLsb'_append_extractLsb'_eq_extractLsb']
  exact BitVec.extractLsb'_eq_self

/-- The register-offset field is the encoding of its parts (R88). -/
theorem shiftedRegField_toBits (w : Word) : (shiftedRegField w).toBits = w.extractLsb' 0 12 := by
  rw [shiftedRegField, ShiftedReg.toBits]
  simp (disch := rfl) only [ShiftType.toBits_ofBits, regBits_regOfBits, BitVec.ofNat_toNat, BitVec.setWidth_eq,
    ← extractLsb'_one, BitVec.extractLsb'_append_extractLsb'_eq_extractLsb']

/-- A word of the classes without other fields is its condition, its class bits and the rest (R90, R91). -/
theorem append_classBits_rest {w : Word} {k m : Nat} (hk : 28 = k + m) {p : BitVec m} (h : w.extractLsb' k m = p) :
    (condField w).toBits ++ p ++ w.extractLsb' 0 k = w.extractLsb' 0 (4 + m + k) := by
  rw [condField_toBits, ← h, BitVec.extractLsb'_append_extractLsb'_eq_extractLsb' hk,
    BitVec.extractLsb'_append_extractLsb'_eq_extractLsb' (Nat.zero_add k).symm]

/-! ### Encoding what was decoded -/

theorem encode_decodeBranch {w : Word} (h : classify w = .branch) : encode (decodeBranch w) = w := by
  have hword := encodeBranch_fields ((classify_eq_branch_iff w).1 h)
  rw [decodeBranch]
  cases hlink : w.getLsbD 24 <;> rw [hlink] at hword <;> exact hword

theorem encode_decodeLoadStore {w : Word} (h : classify w = .loadStore) : encode (decodeLoadStore w) = w := by
  have hword := encodeTransfer_fields ((classify_eq_loadStore_iff w).1 h)
  rw [decodeLoadStore]
  cases hform : w.getLsbD 25 <;> rw [hform] at hword
  · rw [if_neg Bool.false_ne_true, decodeTransferImm_eq, encode_immTransfer, imm12Field, BitVec.ofNat_toNat,
      BitVec.setWidth_eq, hword]
  · rw [if_pos rfl, decodeTransferReg_eq, encode_regTransfer, shiftedRegField_toBits, hword]

theorem encode_decodeDataProcessing {w : Word} (h : classify w = .dataProcessing) : encode (decodeDataProcessing w) = w := by
  rw [decodeDataProcessing, encode, append_classBits_rest rfl ((classify_eq_dataProcessing_iff w).1 h)]
  exact BitVec.extractLsb'_eq_self

theorem encode_decodeUndefined {w : Word} (h : classify w = .undefined) : encode (decodeUndefined w) = w := by
  have hbits := undefined_classBits h
  rw [decodeUndefined]
  split at hbits
  case isTrue h26 =>
    rw [if_pos h26, encode, append_classBits_rest rfl hbits]
    exact BitVec.extractLsb'_eq_self
  case isFalse h26 =>
    rw [if_neg h26, encode, append_classBits_rest rfl hbits]
    exact BitVec.extractLsb'_eq_self

/-- No bit of a word is lost in decoding (R82, log 24). -/
theorem encode_decodeWord (w : Word) : encode (decodeWord w) = w := by
  rw [decodeWord]
  cases h : classify w with
  | branch => exact encode_decodeBranch h
  | dataProcessing => exact encode_decodeDataProcessing h
  | loadStore => exact encode_decodeLoadStore h
  | undefined => exact encode_decodeUndefined h

/-- Decoding fills every numeric field from as many bits as it may have. -/
theorem wellFormed_decodeWord (w : Word) : (decodeWord w).wellFormed = true := by
  rw [decodeWord]
  cases classify w with
  | branch =>
    have hfits : imm24Fits (w.extractLsb' 0 24).toNat = true := decide_eq_true (w.extractLsb' 0 24).isLt
    simp only [decodeBranch]
    split <;> exact hfits
  | dataProcessing => rfl
  | loadStore =>
    simp only [decodeLoadStore]
    split
    · rw [decodeTransferReg_eq, wellFormed_regTransfer]
      exact decide_eq_true (w.extractLsb' 7 5).isLt
    · rw [decodeTransferImm_eq, wellFormed_immTransfer]
      exact decide_eq_true (w.extractLsb' 0 12).isLt
  | undefined =>
    simp only [decodeUndefined]
    split <;> rfl

/-- Settles O2: each class's fields fill the word, and encoding puts each back where it was. -/
theorem encodeOfDecodeIsIdentity : Obligations.EncodeOfDecodeIsIdentity :=
  fun w => ⟨wellFormed_decodeWord w, encode_decodeWord w⟩

/-! ### Decoding what was encoded -/

theorem decodeWord_of_branch {w : Word} (h : classify w = .branch) : decodeWord w = decodeBranch w := by
  rw [decodeWord, h]

theorem decodeWord_of_loadStore {w : Word} (h : classify w = .loadStore) : decodeWord w = decodeLoadStore w := by
  rw [decodeWord, h]

theorem decodeWord_encodeBranch (c : Cond) (link : Bool) {imm24 : Nat} (h : imm24Fits imm24 = true) :
    decodeWord (encodeBranch c link imm24) = if link then .bl c imm24 else .b c imm24 := by
  have hclass := (classify_eq_branch_iff _).2 (encodeBranch_class c link imm24)
  have himm24 : (BitVec.ofNat 24 imm24).toNat = imm24 := by
    rw [BitVec.toNat_ofNat, Nat.mod_eq_of_lt (of_decide_eq_true h)]
  rw [decodeWord_of_branch hclass, decodeBranch, encodeBranch_link, encodeBranch_cond, encodeBranch_imm24, himm24]

theorem decodeWord_encode_immTransfer (byte load : Bool) (c : Cond) (ix : Indexing) (rn rd : Reg) {imm12 : Nat}
    (h : imm12Fits imm12 = true) :
    decodeWord (encode (immTransfer byte load c ix rn rd imm12)) = immTransfer byte load c ix rn rd imm12 := by
  rw [encode_immTransfer]
  have hclass := (classify_eq_loadStore_iff _).2
    (encodeTransfer_class c false byte load ix rn rd (BitVec.ofNat 12 imm12))
  have himm12 : imm12Field (encodeTransfer c false byte load ix rn rd (BitVec.ofNat 12 imm12)) = imm12 := by
    rw [imm12Field, encodeTransfer_off, BitVec.toNat_ofNat, Nat.mod_eq_of_lt (of_decide_eq_true h)]
  rw [decodeWord_of_loadStore hclass, decodeLoadStore, encodeTransfer_regForm, if_neg Bool.false_ne_true, decodeTransferImm_eq,
    encodeTransfer_byte, encodeTransfer_load, encodeTransfer_cond, encodeTransfer_indexing, encodeTransfer_rn,
    encodeTransfer_rd, himm12]

/-- The register-offset field of a word is read from its low 12 bits (R88). -/
theorem shiftedRegField_of_low_bits {w : Word} {sh : ShiftedReg} (h : w.extractLsb' 0 12 = sh.toBits) (hfits : sh.fits = true) :
    shiftedRegField w = sh := by
  have hamount : sh.amount < 2 ^ 5 := of_decide_eq_true hfits
  have hbit4 : w.getLsbD 4 = sh.toBits.getLsbD 4 := by rw [← h, BitVec.getLsbD_extractLsb']; rfl
  rw [shiftedRegField, ← BitVec.extractLsb'_extractLsb'_of_le (len' := 12) (start := 7) (by decide),
    ← BitVec.extractLsb'_extractLsb'_of_le (len' := 12) (start := 5) (by decide),
    ← BitVec.extractLsb'_extractLsb'_of_le (len' := 12) (start := 0) (len := 4) (by decide), h, hbit4, ShiftedReg.toBits]
  simp (disch := decide) only [BitVec.extractLsb'_append_eq_of_le, BitVec.extractLsb'_append_eq_of_add_le, Nat.reduceSub,
    BitVec.extractLsb'_eq_self, BitVec.getLsbD_append, Nat.reduceLT, if_true, if_false, ShiftType.ofBits_toBits,
    regOfBits_regBits, BitVec.toNat_ofNat, Nat.mod_eq_of_lt hamount]
  simp

theorem decodeWord_encode_regTransfer (byte load : Bool) (c : Cond) (ix : Indexing) (rn rd : Reg) {sh : ShiftedReg}
    (h : sh.fits = true) :
    decodeWord (encode (regTransfer byte load c ix rn rd sh)) = regTransfer byte load c ix rn rd sh := by
  rw [encode_regTransfer]
  have hclass := (classify_eq_loadStore_iff _).2 (encodeTransfer_class c true byte load ix rn rd sh.toBits)
  have hoffset := shiftedRegField_of_low_bits (encodeTransfer_off c true byte load ix rn rd sh.toBits) h
  rw [decodeWord_of_loadStore hclass, decodeLoadStore, encodeTransfer_regForm, if_pos rfl, decodeTransferReg_eq,
    encodeTransfer_byte, encodeTransfer_load, encodeTransfer_cond, encodeTransfer_indexing, encodeTransfer_rn,
    encodeTransfer_rd, hoffset]

theorem decodeWord_encode_dp (c : Cond) (ignored : BitVec 26) : decodeWord (encode (.dp c ignored)) = .dp c ignored := by
  obtain ⟨hcond, -, hignored⟩ := encodeStub_fields c 0b00#2 ignored
  rw [decodeWord_of_accepts_dp (Laws.EncodedRow.dp c ignored), encode, (condField_eq_iff _ c).2 hcond, hignored]

/-- A well-formed instruction is recovered from its word. -/
theorem decodeWord_encode {i : Instr} (h : i.wellFormed = true) : decodeWord (encode i) = i := by
  cases i with
  | b c imm24 => exact decodeWord_encodeBranch c false h
  | bl c imm24 => exact decodeWord_encodeBranch c true h
  | strImm c ix rn rd imm12 => exact decodeWord_encode_immTransfer false false c ix rn rd h
  | ldrImm c ix rn rd imm12 => exact decodeWord_encode_immTransfer false true c ix rn rd h
  | strbImm c ix rn rd imm12 => exact decodeWord_encode_immTransfer true false c ix rn rd h
  | ldrbImm c ix rn rd imm12 => exact decodeWord_encode_immTransfer true true c ix rn rd h
  | strReg c ix rn rd sh => exact decodeWord_encode_regTransfer false false c ix rn rd h
  | ldrReg c ix rn rd sh => exact decodeWord_encode_regTransfer false true c ix rn rd h
  | strbReg c ix rn rd sh => exact decodeWord_encode_regTransfer true false c ix rn rd h
  | ldrbReg c ix rn rd sh => exact decodeWord_encode_regTransfer true true c ix rn rd h
  | dp c ignored => exact decodeWord_encode_dp c ignored
  | und100 c ignored => exact decodeWord_encode_und100 c ignored
  | und11x c ignored => exact decodeWord_encode_und11x c ignored

/-- The four bytes of a word, in address order, decode as the word; what follows them is left (R59, R80). -/
theorem decode_bytesOfWord_append (w : Word) (rest : List Byte) :
    decode (bytesOfWord w ++ rest) = .ok (decodeWord w, rest) := by
  have hword := wordOfBytes_lanes w
  rw [bytesOfWord, List.cons_append, List.cons_append, List.cons_append, List.cons_append, decode, hword, List.nil_append]

/-- Settles O1: the bytes are those of the instruction's word, and decoding the word recovers each field. -/
theorem decodeOfEncodeIsIdentity : Obligations.DecodeOfEncodeIsIdentity := by
  intro i rest h
  rw [encodeBytes, decode_bytesOfWord_append, decodeWord_encode h]

/-! ### Rows (R97) -/

/-- The word of an instruction belongs to the instruction's row (R97). -/
theorem accepts_encode (i : Instr) : i.row.accepts (encode i) = true := by
  cases i with
  | b c imm24 => exact Laws.EncodedRow.b c imm24
  | bl c imm24 => exact Laws.EncodedRow.bl c imm24
  | strImm c ix rn rd imm12 => exact Laws.EncodedRow.strImm c ix rn rd imm12
  | ldrImm c ix rn rd imm12 => exact Laws.EncodedRow.ldrImm c ix rn rd imm12
  | strbImm c ix rn rd imm12 => exact Laws.EncodedRow.strbImm c ix rn rd imm12
  | ldrbImm c ix rn rd imm12 => exact Laws.EncodedRow.ldrbImm c ix rn rd imm12
  | strReg c ix rn rd sh => exact Laws.EncodedRow.strReg c ix rn rd sh
  | ldrReg c ix rn rd sh => exact Laws.EncodedRow.ldrReg c ix rn rd sh
  | strbReg c ix rn rd sh => exact Laws.EncodedRow.strbReg c ix rn rd sh
  | ldrbReg c ix rn rd sh => exact Laws.EncodedRow.ldrbReg c ix rn rd sh
  | dp c ignored => exact Laws.EncodedRow.dp c ignored
  | und100 c ignored => exact Laws.EncodedRow.und100 c ignored
  | und11x c ignored => exact Laws.EncodedRow.und11x c ignored

theorem mem_rowAll (r : Row) : r ∈ Row.all := by cases r <;> decide

/-- Rows whose patterns agree in the bits both fix are one row. -/
theorem row_eq_of_patterns_agree (r r' : Row) (h : r.pattern &&& r'.mask = r'.pattern &&& r.mask) : r = r' := by
  have hall : ∀ r ∈ Row.all, ∀ r' ∈ Row.all, r.pattern &&& r'.mask = r'.pattern &&& r.mask → r = r' := by decide
  exact hall r (mem_rowAll r) r' (mem_rowAll r') h

/-- No word belongs to two rows. -/
theorem row_eq_of_accepts {w : Word} {r r' : Row} (h : w &&& r.mask = r.pattern) (h' : w &&& r'.mask = r'.pattern) : r = r' := by
  apply row_eq_of_patterns_agree
  rw [← h, ← h', BitVec.and_assoc, BitVec.and_assoc, BitVec.and_comm r.mask]

/-- Settles O4: the word is the encoding of what it decodes to, so it matches that instruction's row, and it matches no other. -/
theorem everyWordDecodesToTheRowItMatches : Obligations.EveryWordDecodesToTheRowItMatches := by
  intro w r
  have hrow : w &&& (decodeWord w).row.mask = (decodeWord w).row.pattern := by
    have haccepts := beq_iff_eq.1 (accepts_encode (decodeWord w))
    rwa [encode_decodeWord] at haccepts
  constructor
  · exact fun h => row_eq_of_accepts hrow h
  · rintro rfl
    exact hrow

/-- Settles O7: each word is decoded. -/
theorem wordsOfTheSpecDecode : Obligations.WordsOfTheSpecDecode := by
  refine ⟨?_, ?_, ?_, ?_, ?_, ?_, ?_⟩ <;> decide

/-! ### The Load/Store words as numbers (R86 to R88) -/

/-- The number of a Load/Store word: the number of each field, shifted to where the field begins (R86). -/
theorem toNat_encodeTransfer (c : Cond) (regForm byte load : Bool) (ix : Indexing) (rn rd : Reg) (offset12 : BitVec 12) :
    (encodeTransfer c regForm byte load ix rn rd offset12).toNat =
      condCode c * 2 ^ 28 + 1 * 2 ^ 26 + regForm.toNat * 2 ^ 25 + ix.pre.toNat * 2 ^ 24 + ix.up.toNat * 2 ^ 23
        + byte.toNat * 2 ^ 22 + ix.wbit.toNat * 2 ^ 21 + load.toNat * 2 ^ 20 + rn.val * 2 ^ 16 + rd.val * 2 ^ 12
        + offset12.toNat := by
  have hclass : (0b01#2).toNat = 1 := rfl
  have hreg : ∀ r : Reg, (regBits r).toNat = r.val := fun _ => rfl
  simp only [encodeTransfer, toNat_append_add, toNat_condToBits, hclass, BitVec.toNat_ofBool, hreg]
  ring

/-- The number of the register-offset field (R88). -/
theorem toNat_shiftedRegBits {sh : ShiftedReg} (h : sh.amount < 2 ^ 5) :
    sh.toBits.toNat = sh.amount * 2 ^ 7 + shiftCode sh.stype * 2 ^ 5 + sh.bit4.toNat * 2 ^ 4 + sh.rm.val := by
  have htype : ∀ t : ShiftType, t.toBits.toNat = shiftCode t := by intro t; cases t <;> rfl
  have hreg : (regBits sh.rm).toNat = sh.rm.val := rfl
  simp only [ShiftedReg.toBits, toNat_append_add, BitVec.toNat_ofNat, Nat.mod_eq_of_lt h, htype, BitVec.toNat_ofBool, hreg]
  ring

/-- Settles O6: the eight words are the Load/Store word with each value of the form bits `I`, `B` and `L`. -/
theorem transferWordLayout : Obligations.TransferWordLayout := by
  intro c ix rn rd
  refine ⟨fun imm12 h => ⟨_, rfl, ?_⟩, fun sh h => ⟨_, rfl, ?_⟩⟩
  · have hoffset : (BitVec.ofNat 12 imm12).toNat = imm12 := by rw [BitVec.toNat_ofNat, Nat.mod_eq_of_lt h]
    simp only [encode, toNat_encodeTransfer, hoffset, Bool.toNat_true, Bool.toNat_false]
    refine ⟨?_, ?_, ?_, ?_⟩ <;> ring
  · simp only [encode, toNat_encodeTransfer, toNat_shiftedRegBits h, Bool.toNat_true, Bool.toNat_false]
    refine ⟨?_, ?_, ?_, ?_⟩ <;> ring

end Sys2Proof.Proofs
end

section
/-! Register banks: the slot of each register, the generic write, and a write seen from another mode (10_state.md rules R22 to
R26). -/

namespace Sys2Proof.Proofs

open Sys2Proof.Machine Sys2Proof.Claims

/-- The slot table with one row per banked mode (R22). -/
theorem physNumber_eq (m : Mode) {r : Nat} (hr : r < 16) :
    physNumber m r =
      if r = 15 then 15
      else if m = .fiq ∧ 8 ≤ r then r + 8
      else if m = .irq ∧ 13 ≤ r then r + 10
      else if m = .svc ∧ 13 ≤ r then r + 12
      else r := by
  unfold physNumber
  split
  · rfl
  · next h15 =>
    have h14 : r ≤ 14 := by omega
    cases m <;> simp [h14]

/-- Each mode has one number in bits 1:0 of R15 (R24). -/
theorem mode_eq_iff (s : State) :
    (s.mode = .fiq ↔ (s.slot 15).toNat % 4 = 1) ∧ (s.mode = .irq ↔ (s.slot 15).toNat % 4 = 2) ∧
      (s.mode = .svc ↔ (s.slot 15).toNat % 4 = 3) := by
  have hrange : (s.slot 15).toNat % 4 < 4 := Nat.mod_lt _ (by decide)
  rw [State.mode, modeOf_toNat]
  generalize (s.slot 15).toNat % 4 = n at hrange
  interval_cases n <;> decide

/-- Settles O8: the slot is `phys` of the mode and the register, and the mode is the number in bits 1:0 of slot 15. -/
theorem registersReadTheSlotOfTheirMode : Obligations.RegistersReadTheSlotOfTheirMode := by
  intro s r
  obtain ⟨hfiq, hirq, hsvc⟩ := mode_eq_iff s
  refine ⟨phys s.mode r, rfl, ?_⟩
  rw [phys_val, physNumber_eq s.mode r.isLt]
  simp only [hfiq, hirq, hsvc]

/-- R15 after a generic write of it (R26). -/
theorem slot_pc_set_pc (s : State) (v : Word) : (s.set Reg.pc v).slot 15 = v := by
  rw [State.slot_set, if_pos (phys_pc _).symm]

/-- A generic write of R15 replaces the mode (R24, R26). -/
theorem mode_set_pc (s : State) (v : Word) : (s.set Reg.pc v).mode = modeOf v := by
  rw [State.mode, slot_pc_set_pc]

/-- A register reads back what a generic write stored, R15 included (R25, R26). -/
theorem get_set_same (s : State) (r : Reg) (v : Word) : (s.set r v).get r = v := by
  by_cases hr : r = Reg.pc
  · rw [hr, State.get_pc, slot_pc_set_pc]
  · rw [get_set s v hr, if_pos rfl]

/-- Settles O9: a generic write is one slot write, of the slot `phys` names in the mode before it. -/
theorem genericWriteReplacesOneSlot : Obligations.GenericWriteReplacesOneSlot := by
  intro s r v
  refine ⟨get_set_same s r v, ?otherSlots, sameMemory_of_fields rfl rfl rfl, ?otherRegisters, ?mode⟩
  case otherSlots => exact fun k hk => by rw [State.slot_set, if_neg hk]
  case otherRegisters => exact fun hr => ⟨State.mode_set s v hr, fun r' hr' => by rw [get_set s v hr, if_neg hr']⟩
  case mode => rintro rfl; exact mode_set_pc s v

/-- Two pairs of mode and register name one slot exactly when the spec's derivation from the slot table says so (R22, R23). -/
theorem phys_eq_phys_iff_sharesSlot (m m' : Mode) (r r' : Reg) : phys m' r' = phys m r ↔ SharesSlot m r m' r' := by
  revert r r'
  cases m <;> cases m' <;> decide

/-- Settles O11: after the switch of mode a register reads the slot the new mode shows, which the write changed exactly when it is
the slot the old mode showed. -/
theorem bankedRegistersAreSeparate : Obligations.BankedRegistersAreSeparate := by
  intro s r r' v w hr hr'
  have hslot : ∀ t : State, (t.set 15 w).get r' = t.slot (phys (modeOf w) r') := by
    intro t
    have hne : phys (modeOf w) r' ≠ 15 := fun h => hr' ((phys_eq_pc _ _).1 h)
    rw [State.get, mode_set_pc, State.slot_set, phys_pc, if_neg hne]
  rw [hslot, hslot, State.slot_set]
  simp only [phys_eq_phys_iff_sharesSlot]

end Sys2Proof.Proofs
end

section
/-! The region table over the reduced address (20_memory.md rules R51 to R58, R62). -/

namespace Sys2Proof.Proofs

open Sys2Proof.Machine Sys2Proof.Claims

/-! ### What stands behind a reduced address (R52) -/

/-- The region table over the statements' reduced address (R51, R52). -/
theorem backing_eq (s : State) (a : Word) :
    s.backing a =
      if reduced a < 0x2000000 then (if s.romLow then .lowMappedRom (reduced a) else ramBacking (reduced a))
      else if reduced a < 0x3000000 then ramBacking (reduced a - 0x2000000)
      else if reduced a < 0x3400000 then .io
      else if reduced a < 0x3800000 then .lowRom
      else .highRom (reduced a - 0x3800000) :=
  locate_toNat s.romLow a rfl

/-- RAM beyond its size is unbacked (R53). -/
theorem ramBacking_eq (o : Nat) : ramBacking o = if o < 0x400000 then .ram o else .noRam := rfl

/-- The region table read backwards: where an address lies, by what stands behind it (R52, R53). -/
theorem region_table (s : State) (a : Word) :
    (∀ o, s.backing a = .ram o ↔ o < 0x400000 ∧ ((reduced a = o ∧ s.romLow = false) ∨ reduced a = 0x2000000 + o)) ∧
    (∀ o, s.backing a = .lowMappedRom o ↔ reduced a < 0x2000000 ∧ s.romLow = true ∧ o = reduced a) ∧
    (∀ o, s.backing a = .highRom o ↔ 0x3800000 ≤ reduced a ∧ o = reduced a - 0x3800000) ∧
    (s.backing a = .noRam ↔
      (0x400000 ≤ reduced a ∧ reduced a < 0x2000000 ∧ s.romLow = false) ∨
        (0x2400000 ≤ reduced a ∧ reduced a < 0x3000000)) ∧
    (s.backing a = .io ∨ s.backing a = .lowRom ↔ 0x3000000 ≤ reduced a ∧ reduced a < 0x3800000) := by
  rw [backing_eq, ramBacking_eq, ramBacking_eq]
  cases s.romLow
  all_goals
    simp only [if_true, Bool.false_eq_true, if_false]
    split_ifs <;> refine ⟨fun o => ?_, fun o => ?_, fun o => ?_, ?_, ?_⟩ <;> simp <;> omega

theorem backing_eq_ram_iff (s : State) (a : Word) (o : Nat) :
    s.backing a = .ram o ↔ o < 0x400000 ∧ ((reduced a = o ∧ s.romLow = false) ∨ reduced a = 0x2000000 + o) :=
  (region_table s a).1 o

theorem backing_eq_lowMappedRom_iff (s : State) (a : Word) (o : Nat) :
    s.backing a = .lowMappedRom o ↔ reduced a < 0x2000000 ∧ s.romLow = true ∧ o = reduced a :=
  (region_table s a).2.1 o

theorem backing_eq_highRom_iff (s : State) (a : Word) (o : Nat) :
    s.backing a = .highRom o ↔ 0x3800000 ≤ reduced a ∧ o = reduced a - 0x3800000 :=
  (region_table s a).2.2.1 o

theorem backing_eq_noRam_iff (s : State) (a : Word) :
    s.backing a = .noRam ↔
      (0x400000 ≤ reduced a ∧ reduced a < 0x2000000 ∧ s.romLow = false) ∨
        (0x2400000 ≤ reduced a ∧ reduced a < 0x3000000) :=
  (region_table s a).2.2.2.1

theorem backing_eq_stub_iff (s : State) (a : Word) :
    s.backing a = .io ∨ s.backing a = .lowRom ↔ 0x3000000 ≤ reduced a ∧ reduced a < 0x3800000 :=
  (region_table s a).2.2.2.2

/-- The RAM-backed addresses and their offsets, through either RAM window (R52, R53). -/
theorem ramOffset_eq_some_iff (s : State) (a : Word) (o : Nat) :
    s.ramOffset a = some o ↔ o < 0x400000 ∧ ((reduced a = o ∧ s.romLow = false) ∨ reduced a = 0x2000000 + o) := by
  rw [State.ramOffset_eq_some, backing_eq_ram_iff]

/-! ### Word reads (R52 to R55) -/

/-- A RAM word is the little-endian number of its bytes (R53, R59). -/
theorem toNat_readWord (m : Memory) (o : Nat) : (Memory.readWord m o).toNat = leNumber (Memory.read m) o :=
  toNat_wordOfBytes _ _ _ _

/-- A ROM word is the little-endian number of its bytes (R54, R59). -/
theorem toNat_romWord (image : List Byte) (o : Nat) : (romWord image o).toNat = leNumber (fun i => image.getD i 0) o :=
  toNat_wordOfBytes _ _ _ _

theorem toNat_loadWord_of_ramOffset {s : State} {a : Word} {o : Nat} (h : s.ramOffset a = some o) :
    (s.loadWord a).toNat = leNumber (Memory.read s.ram) o := by
  rw [State.loadWord_ram h, toNat_readWord]

/-- A ROM word is read through either ROM window (R54). -/
theorem loadWord_of_rom {s : State} {a : Word} {o : Nat} (h : s.backing a = .lowMappedRom o ∨ s.backing a = .highRom o) :
    s.loadWord a = romWord s.romImage o := by
  rcases h with h | h <;> rw [State.loadWord, h]

/-- Unbacked RAM and the stubs read 0 (R52, R53). -/
theorem loadWord_eq_zero {s : State} {a : Word} (h : s.backing a = .noRam ∨ s.backing a = .io ∨ s.backing a = .lowRom) :
    s.loadWord a = 0#32 := by
  rcases h with h | h | h <;> rw [State.loadWord, h]

/-- Settles O13: each clause is one row of the region table, and the last window but one is the unbacked RAM with the two stubs. -/
theorem loadWordFollowsTheRegionTable : Obligations.LoadWordFollowsTheRegionTable := by
  intro s a
  refine ⟨?lowMappedRom, ?logicalRam, ?logicalNoRam, ?physicalRam, ?zeros, ?highRom⟩
  case lowMappedRom =>
    intro h hlow
    rw [loadWord_of_rom (.inl ((backing_eq_lowMappedRom_iff s a _).2 ⟨h, hlow, rfl⟩)), toNat_romWord]
  case logicalRam =>
    intro h hlow
    exact toNat_loadWord_of_ramOffset ((ramOffset_eq_some_iff s a _).2 ⟨h, .inl ⟨rfl, hlow⟩⟩)
  case logicalNoRam =>
    intro h h' hlow
    exact loadWord_eq_zero (.inl ((backing_eq_noRam_iff s a).2 (.inl ⟨h, h', hlow⟩)))
  case physicalRam =>
    intro h h'
    exact toNat_loadWord_of_ramOffset ((ramOffset_eq_some_iff s a _).2 ⟨by omega, .inr (by omega)⟩)
  case zeros =>
    intro h h'
    apply loadWord_eq_zero
    by_cases hram : reduced a < 0x3000000
    · exact .inl ((backing_eq_noRam_iff s a).2 (.inr ⟨h, hram⟩))
    · exact .inr ((backing_eq_stub_iff s a).2 ⟨by omega, h'⟩)
  case highRom =>
    intro h
    rw [loadWord_of_rom (.inr ((backing_eq_highRom_iff s a _).2 ⟨h, rfl⟩)), toNat_romWord]

/-! ### Word writes (R52, R56) -/

theorem storeWord_of_ramOffset {s : State} {a : Word} {o : Nat} (h : s.ramOffset a = some o) (v : Word) :
    s.storeWord a v = { s with ram := Memory.writeWord s.ram o v } := by
  rw [State.storeWord, State.ramOffset_eq_some.1 h]

theorem storeWord_of_ramOffset_none {s : State} {a : Word} (h : s.ramOffset a = none) (v : Word) : s.storeWord a v = s := by
  rcases s.storeWord_cases a v with ⟨o, ho, -⟩ | ⟨-, e⟩
  · rw [ho] at h; cases h
  · exact e

/-- Settles O14: RAM-backed addresses take the four bytes, and every other address drops them. -/
theorem storeWordFollowsTheRegionTable : Obligations.StoreWordFollowsTheRegionTable := by
  intro s a v
  refine ⟨fun o ho => ?ram, fun hrange => ?dropped⟩
  case ram =>
    have hoffset : s.ramOffset a = some o := (ramOffset_eq_some_iff s a o).2 (by tauto)
    rw [storeWord_of_ramOffset hoffset]
    refine ⟨?_, fun j hj => ?_, rfl, rfl, rfl⟩
    · rw [← toNat_readWord, Memory.readWord_writeWord_same]
    · rw [Memory.read_writeWord, if_neg (by omega)]
  case dropped =>
    have hnone : s.ramOffset a = none := by
      refine Option.eq_none_iff_forall_ne_some.2 fun o ho => ?_
      obtain ⟨hsize, ⟨hlogical, hlow⟩ | hphysical⟩ := (ramOffset_eq_some_iff s a o).1 ho
      · rw [hlow, Bool.false_eq_true, and_false, false_or] at hrange
        omega
      · omega
    exact storeWord_of_ramOffset_none hnone v

/-- Settles O15: the two addresses have one RAM offset. -/
theorem ramWindowsShowTheSameWords : Obligations.RamWindowsShowTheSameWords := by
  intro s a b v hlow ha hb
  have hoffset_a : s.ramOffset a = some (reduced a) := (ramOffset_eq_some_iff s a _).2 ⟨ha, .inl ⟨rfl, hlow⟩⟩
  have hoffset_b : s.ramOffset b = some (reduced a) := (ramOffset_eq_some_iff s b _).2 ⟨ha, .inr hb⟩
  refine ⟨?_, ?_, ?_⟩
  · rw [State.loadWord_ram hoffset_a, State.loadWord_ram hoffset_b]
  · rw [storeWord_of_ramOffset hoffset_a, storeWord_of_ramOffset hoffset_b]
  · rw [State.loadWord_storeWord, if_pos ⟨by simp [hoffset_a], by rw [hoffset_a, hoffset_b]⟩]

/-! ### Byte stores (R58) -/

theorem laneOf_lt (a : Word) : laneOf a < 4 := by
  rw [laneOf_eq]
  exact Nat.mod_lt _ (by decide)

/-- What a byte reads as after a byte store into RAM: in the stored word the byte in its lane and zeros beside it, elsewhere what
it was (R57, R58, D16). -/
theorem loadByte_storeByte {s : State} {a : Word} (h : s.ramOffset a ≠ none) (b : Byte) (a' : Word) :
    (s.storeByte a b).loadByte a' =
      if s.ramOffset a' = s.ramOffset a then (if laneOf a' = laneOf a then b else 0#8) else s.loadByte a' := by
  rw [State.loadByte, State.storeByte, State.loadWord_storeWord]
  by_cases hword : s.ramOffset a' = s.ramOffset a
  · rw [if_pos ⟨h, hword⟩, if_pos hword, byteLane_byteInLane a b (laneOf_lt a')]
  · rw [if_neg (fun hh => hword hh.2), if_neg hword, State.loadByte]

/-- Settles O18: the stored word holds the byte in its lane and zeros beside it, and no other word changes. -/
theorem byteStoreClobbersItsNeighbours : Obligations.ByteStoreClobbersItsNeighbours := by
  intro s a a' b h
  refine ⟨?_, fun hword hlane => ?_, fun hword => ?_⟩
  · rw [loadByte_storeByte h, if_pos rfl, if_pos rfl]
  · rw [loadByte_storeByte h, if_pos hword, laneOf_eq, laneOf_eq, if_neg hlane]
  · rw [loadByte_storeByte h, if_neg hword]

/-! ### Diagnostics (R62) -/

theorem readDiagnostic_outOfBounds_iff (s : State) (a : Word) :
    s.readDiagnostic a = some .outOfBoundsRomRead ↔ ∃ o, s.backing a = .highRom o ∧ s.romImage.length ≤ o := by
  rw [State.readDiagnostic]
  cases s.backing a <;> simp

theorem readDiagnostic_stubbed_iff (s : State) (a : Word) :
    s.readDiagnostic a = some .stubbedIoAccess ↔ s.backing a = .io ∨ s.backing a = .lowRom := by
  rw [State.readDiagnostic]
  cases s.backing a <;> simp

theorem writeDiagnostic_stubbed_iff (s : State) (a : Word) :
    s.writeDiagnostic a = some .stubbedIoAccess ↔ s.backing a = .io ∨ s.backing a = .lowRom := by
  rw [State.writeDiagnostic]
  cases s.backing a <;> simp

theorem writeDiagnostic_ne_outOfBounds (s : State) (a : Word) : s.writeDiagnostic a ≠ some .outOfBoundsRomRead := by
  rw [State.writeDiagnostic]
  cases s.backing a <;> simp

/-- Past the image's end a ROM word is 0 (R54). -/
theorem romWord_eq_zero {image : List Byte} {o : Nat} (h : image.length ≤ o) : romWord image o = 0#32 := by
  have hbyte : ∀ k, romByte image (o + k) = 0#8 := fun k => List.getD_eq_default _ _ (by omega)
  have hbyte0 : romByte image o = 0#8 := hbyte 0
  rw [romWord, hbyte0, hbyte, hbyte, hbyte]
  rfl

/-- A diagnosed read answers 0 (R62). -/
theorem loadWord_of_readDiagnostic {s : State} {a : Word} (h : s.readDiagnostic a ≠ none) : s.loadWord a = 0#32 := by
  obtain ⟨d, hd⟩ := Option.ne_none_iff_exists'.1 h
  cases d with
  | outOfBoundsRomRead =>
    obtain ⟨o, hback, hlen⟩ := (readDiagnostic_outOfBounds_iff s a).1 hd
    rw [loadWord_of_rom (.inr hback), romWord_eq_zero hlen]
  | stubbedIoAccess => exact loadWord_eq_zero (.inr ((readDiagnostic_stubbed_iff s a).1 hd))

/-- A diagnosed write writes nothing (R62). -/
theorem storeWord_of_writeDiagnostic {s : State} {a : Word} (h : s.writeDiagnostic a ≠ none) (v : Word) :
    s.storeWord a v = s := by
  obtain ⟨d, hd⟩ := Option.ne_none_iff_exists'.1 h
  cases d with
  | outOfBoundsRomRead => exact absurd hd (writeDiagnostic_ne_outOfBounds s a)
  | stubbedIoAccess => rcases (writeDiagnostic_stubbed_iff s a).1 hd with e | e <;> rw [State.storeWord, e]

/-- Settles O19: each diagnostic is a region of the table, the high ROM's with the image's length. -/
theorem diagnosedAccessesReadZeroAndWriteNothing : Obligations.DiagnosedAccessesReadZeroAndWriteNothing := by
  intro s a v b
  refine ⟨?outOfBounds, ?readStub, ?writeStub, writeDiagnostic_ne_outOfBounds s a, fun h => ?reads, fun h => ?writes⟩
  case outOfBounds =>
    simp only [readDiagnostic_outOfBounds_iff, backing_eq_highRom_iff, and_assoc, exists_and_left, exists_eq_left]
  case readStub => rw [readDiagnostic_stubbed_iff, backing_eq_stub_iff]
  case writeStub => rw [writeDiagnostic_stubbed_iff, backing_eq_stub_iff]
  case reads =>
    have hword := loadWord_of_readDiagnostic h
    refine ⟨hword, ?_⟩
    rw [State.loadByte, hword, byteLane, BitVec.extractLsb'_zero]
  case writes => exact ⟨storeWord_of_writeDiagnostic h v, storeWord_of_writeDiagnostic h _⟩

end Sys2Proof.Proofs
end

section
/-! Steps, faults and runs (40_step_cycle.md rules R100 to R112, 60_exceptions.md rules R160 to R162). -/

namespace Sys2Proof.Proofs

open Sys2Proof.Machine Sys2Proof.Claims

/-! ### A step (R100 to R110) -/

/-- A step that executes an Undefined word faults with the fetch address and the word fetched (R161). -/
theorem step_faults {s : State} (hclass : (decodeWord s.fetchWord).class = .undefined)
    (hp : s.passes (decodeWord s.fetchWord).cond = true) :
    step s = .fault (.undefinedInstruction s.fetchAddr s.fetchWord) := by
  rw [step_eq, exec_raises hclass hp, encode_decodeWord]

/-- Settles O24: an executed Undefined word raises with the word it was decoded from, and everything else completes. -/
theorem stepFaultsExactlyOnExecutedUndefinedWords : Obligations.StepFaultsExactlyOnExecutedUndefinedWords :=
  fun _ => ⟨fun ⟨hclass, hp⟩ => step_faults hclass hp, exec_completes⟩

/-- A step answers a next state or a fault, never a refusal (R110). -/
theorem step_cases (s : State) : (∃ t, step s = .next t) ∨ (∃ f, step s = .fault f) := by
  by_cases h : (decodeWord s.fetchWord).class = .undefined ∧ s.passes (decodeWord s.fetchWord).cond = true
  · exact .inr ⟨_, step_faults h.1 h.2⟩
  · exact .inl (exec_completes h)

/-- Settles O41: only an Undefined word can raise. -/
theorem definedInstructionsNeverStop : Obligations.DefinedInstructionsNeverStop :=
  fun _ _ hclass => exec_completes fun h => hclass h.1

/-- The fetched word is the word of the four byte loads from the fetch address on (R102). -/
theorem wordOfBytes_loadBytes (s : State) {f : Word} (hf : f &&& Config.addrMask = f) :
    wordOfBytes (s.loadByte f) (s.loadByte (f + 1#32)) (s.loadByte (f + 2#32)) (s.loadByte (f + 3#32)) = s.loadWord f := by
  have hbyte : ∀ k < 4, s.loadByte (f + BitVec.ofNat 32 k) = byteLane (s.loadWord f) k := fun k hk => by
    have hlane := loadByte_reduced_add_lane s f hk
    rwa [hf] at hlane
  have hbyte0 := hbyte 0 (by decide)
  rw [BitVec.add_zero] at hbyte0
  rw [hbyte0, hbyte 1 (by decide), hbyte 2 (by decide), hbyte 3 (by decide), wordOfBytes_lanes]

/-- Settles O23: the byte loads from the fetch address are the lanes of the fetched word. -/
theorem stepRunsTheDecodedInstruction : Obligations.StepRunsTheDecodedInstruction := by
  intro s i rest f hf hdecode
  have haddr : f = s.fetchAddr := hf
  have hmasked : f &&& Config.addrMask = f := by rw [hf]; exact addrMask_idem _
  rw [decode, wordOfBytes_loadBytes s hmasked, haddr] at hdecode
  injection hdecode with hpair
  injection hpair with hi
  rw [step_eq, State.fetchWord, hi]

/-- A skipped instruction and a Data-Processing instruction are the PC advance alone (R106, R150). -/
theorem exec_advances {i : Instr} {s : State} (h : i.class = .dataProcessing ∨ s.passes i.cond = false) :
    exec i s = .next (InFlight.start s).retire := by
  rcases h with hclass | hp
  · cases i with
    | dp c ignored => exact exec_dp c ignored s
    | _ => simp only [Instr.class, reduceCtorEq] at hclass
  · exact exec_skipped hp

/-- Settles O22: what such an instruction answers is the PC advance of an instruction that has written nothing. -/
theorem sequentialFetchAdvancesByFour : Obligations.SequentialFetchAdvancesByFour :=
  fun _ s h => ⟨_, exec_advances h, State.fetchAddr_advance rfl (InFlight.pc_retire (InFlight.start s))⟩

/-! ### Runs (R112) -/

theorem run_succ_of_next {s t : State} (h : step s = .next t) (n : Nat) : s.run (n + 1) = t.run n := by
  rw [State.run, h]

theorem run_succ_of_fault {s : State} {f : Fault} (h : step s = .fault f) (n : Nat) : s.run (n + 1) = (s, some f) := by
  rw [State.run, h]

/-- Settles O27: the first step of the run is the fault. -/
theorem faultLeavesTheStateAndRepeats : Obligations.FaultLeavesTheStateAndRepeats :=
  fun _ n hclass hp => run_succ_of_fault (step_faults hclass hp) n

/-- A run without a fault is one step longer exactly when the state it reached steps on. -/
theorem run_succ_eq_none_iff (n : Nat) (s t : State) :
    s.run (n + 1) = (t, none) ↔ ∃ u : State, s.run n = (u, none) ∧ step u = .next t := by
  induction n generalizing s with
  | zero =>
    rcases step_cases s with ⟨u, hu⟩ | ⟨f, hf⟩
    · rw [run_succ_of_next hu]; simp [State.run, hu]
    · rw [run_succ_of_fault hf]; simp [State.run, hf]
  | succ n ih =>
    rcases step_cases s with ⟨u, hu⟩ | ⟨f, hf⟩
    · rw [run_succ_of_next hu, run_succ_of_next hu, ih]
    · rw [run_succ_of_fault hf, run_succ_of_fault hf]; simp

/-- A run ends with a fault exactly when a shorter run reached the state whose step is that fault. -/
theorem run_eq_some_iff (n : Nat) (s t : State) (f : Fault) :
    s.run n = (t, some f) ↔ ∃ m : Nat, m < n ∧ s.run m = (t, none) ∧ step t = .fault f := by
  induction n generalizing s with
  | zero => simp [State.run]
  | succ n ih =>
    rcases step_cases s with ⟨u, hu⟩ | ⟨g, hg⟩
    case inl =>
      rw [run_succ_of_next hu, ih]
      constructor
      · rintro ⟨m, hm, hrun, hfault⟩
        exact ⟨m + 1, by omega, by rwa [run_succ_of_next hu], hfault⟩
      · rintro ⟨_ | m, hm, hrun, hfault⟩
        · obtain ⟨rfl, -⟩ := Prod.mk.inj hrun
          rw [hu] at hfault; cases hfault
        · exact ⟨m, by omega, by rwa [run_succ_of_next hu] at hrun, hfault⟩
    case inr =>
      rw [run_succ_of_fault hg]
      constructor
      · intro h
        obtain ⟨rfl, hsome⟩ := Prod.mk.inj h
        obtain rfl := Option.some.inj hsome
        exact ⟨0, by omega, rfl, hg⟩
      · rintro ⟨_ | m, hm, hrun, hfault⟩
        · obtain ⟨rfl, -⟩ := Prod.mk.inj hrun
          rw [hg] at hfault
          rw [Host.Outcome.fault.inj hfault]
        · rw [run_succ_of_fault hg] at hrun; cases hrun

/-- A run continues from where a shorter run ended. -/
theorem run_add_of_none {m : Nat} {s t : State} (h : s.run m = (t, none)) (n : Nat) : s.run (m + n) = t.run n := by
  induction m generalizing s with
  | zero =>
    obtain ⟨rfl, -⟩ := Prod.mk.inj h
    rw [Nat.zero_add]
  | succ m ih =>
    rcases step_cases s with ⟨u, hu⟩ | ⟨f, hf⟩
    · rw [run_succ_of_next hu] at h
      rw [Nat.add_right_comm, run_succ_of_next hu, ih h]
    · rw [run_succ_of_fault hf] at h
      cases h

/-- A fault ends a run, however many steps were left. -/
theorem run_add_of_some {m : Nat} {s t : State} {f : Fault} (h : s.run m = (t, some f)) (n : Nat) :
    s.run (m + n) = (t, some f) := by
  obtain ⟨k, hk, hrun, hfault⟩ := (run_eq_some_iff m s t f).1 h
  exact (run_eq_some_iff (m + n) s t f).2 ⟨k, by omega, hrun, hfault⟩

/-- Settles O49: the first two clauses after the empty run are inductions over the steps, and the composition follows from where the
shorter run ended. -/
theorem runsCompose : Obligations.RunsCompose := by
  intro s
  refine ⟨rfl, fun n t => run_succ_eq_none_iff n s t, fun n t f => run_eq_some_iff n s t f, fun m n => ?_⟩
  rcases h : s.run m with ⟨t, _ | f⟩
  · exact run_add_of_none h n
  · exact run_add_of_some h n

end Sys2Proof.Proofs
end

section
/-! Branches (41_branch.md rules R120 to R124). -/

namespace Sys2Proof.Proofs

open Sys2Proof.Machine Sys2Proof.Claims

/-! ### Where a branch goes (R120) -/

/-- The state after a branch, its link written or not, goes to the target of a branch from `s`. -/
def GoesToTarget (s : State) (imm24 : Nat) (t : State) : Prop :=
  t.slot 15 = r15With (s.slot 15) (s.getAddress 15 + BitVec.ofNat 32 (4 * imm24) + 8#32) ∧
    t.fetchAddr.toNat = (s.fetchAddr.toNat + 8 + 4 * imm24) % 2 ^ 26

/-- A branch goes to the target of the state it starts from, as long as R15 has not been written (R120). -/
theorem goesToTarget_branchTo {s : State} {x : InFlight} (hpc : x.st.slot 15 = s.slot 15) (imm24 : Nat) :
    GoesToTarget s imm24 (branchTo imm24 x).retire := by
  have hslot := pc_branchTo imm24 x
  rw [hpc] at hslot
  constructor
  · have haligned : (BitVec.ofNat 32 (4 * imm24 + 8)).toNat % 4 = 0 := by rw [BitVec.toNat_ofNat]; omega
    have hpcAddr : s.getAddress 15 = s.slot 15 &&& Config.addrMask := s.getAddress_pc
    rw [hslot, r15With_eq_splicePc, hpcAddr, BitVec.add_assoc, ← BitVec.ofNat_add, splicePc_advance _ _ haligned]
  · rw [State.fetchAddr_advance (by omega) hslot]
    omega

/-- A branch leaves the memory (R120). -/
theorem sameMemory_branchTo (imm24 : Nat) (x : InFlight) : SameMemory x.st (branchTo imm24 x).retire :=
  sameMemory_of_fields (by simp) (by simp) (by simp)

/-- Settles O28: the branch writes R15 alone, so the advance is 8. -/
theorem branchGoesToItsTarget : Obligations.BranchGoesToItsTarget := by
  intro c imm24 s hp
  obtain ⟨hpc, hfetch⟩ := goesToTarget_branchTo (s := s) (x := InFlight.start s) rfl imm24
  exact ⟨_, exec_executes (i := .b c imm24) nofun hp,
    ⟨fun k hk => slot_branchTo imm24 _ hk, hpc, sameMemory_branchTo imm24 _⟩, hfetch⟩

/-- R14 of no mode is R15's slot. -/
theorem phys_lr_ne_pc (m : Mode) : phys m Reg.lr ≠ 15 := fun h => absurd ((phys_eq_pc m Reg.lr).1 h) (by decide)

/-- Settles O29: the link is written first and does not reach R15, so the branch goes where B goes. -/
theorem branchWithLinkLinksAndGoes : Obligations.BranchWithLinkLinksAndGoes := by
  intro c imm24 s hp
  have hlinked : (linkRegister (InFlight.start s)).st.slot 15 = s.slot 15 := by
    rw [slot_linkRegister, if_neg (phys_lr_ne_pc s.mode).symm]
  obtain ⟨hpc, hfetch⟩ := goesToTarget_branchTo hlinked imm24
  refine ⟨_, exec_executes (i := .bl c imm24) nofun hp, ?link, fun k hk hlr => ?otherSlots, hpc, ?memory, hfetch⟩
  case link =>
    have hmode : (executeOperation (.bl c imm24) (InFlight.start s)).retire.mode = s.mode := by
      rw [InFlight.mode_retire, executeOperation_mode, InFlight.start_st]
    rw [State.get, hmode]
    exact (slot_branchTo imm24 _ (phys_lr_ne_pc s.mode)).trans (by rw [slot_linkRegister, if_pos rfl]; rfl)
  case otherSlots =>
    exact (slot_branchTo imm24 _ hk).trans (by rw [slot_linkRegister, if_neg hlr])
  case memory => exact sameMemory_branchTo imm24 (linkRegister (InFlight.start s))

/-- B and BL complete and go to the target. -/
theorem exec_branch_goesToTarget {c : Cond} (imm24 : Nat) {s : State} (hp : s.passes c = true) :
    (∃ t, exec (.b c imm24) s = .next t ∧ GoesToTarget s imm24 t) ∧
      (∃ t, exec (.bl c imm24) s = .next t ∧ GoesToTarget s imm24 t) := by
  obtain ⟨t, ht, ⟨-, hpc, -⟩, hfetch⟩ := branchGoesToItsTarget c imm24 s hp
  obtain ⟨u, hu, -, -, hpc', -, hfetch'⟩ := branchWithLinkLinksAndGoes c imm24 s hp
  exact ⟨⟨t, ht, hpc, hfetch⟩, ⟨u, hu, hpc', hfetch'⟩⟩

/-! ### The target written in other ways (R95, R122) -/

/-- The fetch address is a multiple of 4 below 2^26 (R101). -/
theorem fetchAddr_range (s : State) : s.fetchAddr.toNat % 4 = 0 ∧ s.fetchAddr.toNat < 2 ^ 26 := by
  rw [State.fetchAddr_eq, toNat_addrMask]
  omega

/-- The target with a sign-extended offset is the target with the unsigned one, modulo 2^26 (R122). -/
theorem fetchAddr_eq_signed_target {s t : State} {imm24 : BitVec 24} (h : GoesToTarget s imm24.toNat t) :
    t.fetchAddr = (s.fetchAddr + 8#32 + imm24.signExtend 32 * 4#32) &&& 0x03FFFFFC#32 := by
  obtain ⟨haligned, -⟩ := fetchAddr_range s
  have hsigned : (imm24.signExtend 32).toNat = imm24.toNat + if imm24.msb then 2 ^ 32 - 2 ^ 24 else 0 := by
    rw [BitVec.toNat_signExtend, BitVec.toNat_setWidth, Nat.mod_eq_of_lt (by omega)]
  apply BitVec.eq_of_toNat_eq
  refine h.2.trans (Eq.trans ?_ (toNat_addrMask _).symm)
  rw [BitVec.toNat_add, BitVec.toNat_add, BitVec.toNat_mul, hsigned, BitVec.toNat_ofNat, BitVec.toNat_ofNat]
  split <;> omega

/-- Settles O30: both branches go to the target, which modulo 2^26 is the signed one. -/
theorem branchOffsetActsAsSigned : Obligations.BranchOffsetActsAsSigned := by
  intro c imm24 s hp
  obtain ⟨⟨t, ht, htarget⟩, ⟨u, hu, hutarget⟩⟩ := exec_branch_goesToTarget imm24.toNat hp
  exact ⟨⟨t, ht, fetchAddr_eq_signed_target htarget⟩, ⟨u, hu, fetchAddr_eq_signed_target hutarget⟩⟩

/-- The branch mask keeps a value modulo 2^26. -/
theorem toNat_branchMask (v : Word) : (v &&& Config.branchMask).toNat = v.toNat % 2 ^ 26 := by
  have hmask : Config.branchMask.toNat = 2 ^ 26 - 1 := rfl
  rw [BitVec.toNat_and, hmask, Nat.and_two_pow_sub_one_eq_mod]

/-- The target the trace shows is the next fetch address (R95). -/
theorem fetchAddr_eq_traceTarget {s t : State} {imm24 : Nat} (h : GoesToTarget s imm24 t) :
    t.fetchAddr = traceTarget s.fetchAddr imm24 := by
  apply BitVec.eq_of_toNat_eq
  rw [h.2, traceTarget, toNat_branchMask, branchOffset_eq, BitVec.toNat_add, BitVec.toNat_add, BitVec.toNat_ofNat,
    BitVec.toNat_ofNat]
  omega

/-- Settles O32: both branches go to the target, and the trace shows it. -/
theorem traceShowsTheBranchTarget : Obligations.TraceShowsTheBranchTarget := by
  intro c imm24 s hp
  obtain ⟨⟨t, ht, htarget⟩, ⟨u, hu, hutarget⟩⟩ := exec_branch_goesToTarget imm24 hp
  exact ⟨⟨t, _, rfl, ht, fetchAddr_eq_traceTarget htarget⟩, ⟨u, _, rfl, hu, fetchAddr_eq_traceTarget hutarget⟩⟩

/-! ### The branch to itself (R124) -/

/-- Going round the whole 26-bit space leaves R15. -/
theorem splicePc_add_two_pow_26 (packed : Word) : splicePc packed (packed + BitVec.ofNat 32 (2 ^ 26)) = packed := by
  have hwrap : (packed + BitVec.ofNat 32 (2 ^ 26)) &&& Config.addrMask = packed &&& Config.addrMask := by
    apply BitVec.eq_of_toNat_eq
    rw [toNat_addrMask, toNat_addrMask, BitVec.toNat_add, BitVec.toNat_ofNat]
    have := packed.isLt
    omega
  rw [← splicePc_masked, hwrap, splicePc_masked, splicePc_self]

/-- The branch with offset -2 words leaves every field of the state (R124). -/
theorem exec_branchToSelf (s : State) : exec (.b .al 0xFFFFFE) s = .next s := by
  have hself : (branchTo 0xFFFFFE (InFlight.start s)).retire = s := by
    refine State.eq_of_fields (fun k => ?_) (by simp) (by simp) (by simp)
    by_cases hk : k = 15
    · rw [hk, pc_branchTo]
      exact splicePc_add_two_pow_26 (s.slot 15)
    · exact slot_branchTo _ _ hk
  rw [exec_executes (i := .b .al 0xFFFFFE) nofun rfl]
  exact congrArg _ hself

/-- Settles O31: the run is one fixed point after another. -/
theorem branchToSelfSpins : Obligations.BranchToSelfSpins := by
  intro s hword
  have hdecode : decodeWord 0xEAFFFFFE#32 = .b .al 0xFFFFFE := by decide
  have hstep : step s = .next s := by rw [step_eq, hword, hdecode, exec_branchToSelf]
  refine ⟨hstep, fun n => ?_⟩
  induction n with
  | zero => rfl
  | succ n ih => rw [run_succ_of_next hstep, ih]

end Sys2Proof.Proofs
end

section
/-! Loads and stores: the completion of a transfer and what follows from it (42_load_store.md rules R130 to R140). -/

namespace Sys2Proof.Proofs

open Sys2Proof.Machine Sys2Proof.Claims

/-! ### Write-back and the PC advance, by register (R136) -/

/-- The model's write-back flag is the statements' (30_encoding.md R89). -/
theorem writesBack_iff_wbOf (ix : Indexing) : Indexing.writesBack ix = true ↔ wbOf ix := by
  rw [Indexing.writesBack, Bool.or_eq_true, Bool.not_eq_true']

/-- What a register other than R15 reads when a transfer has completed: the written-back base, or what the access left. -/
theorem get_writeBack_retire (ix : Indexing) (rn : Reg) (base soff : Word) (x : InFlight) {r : Reg} (hr : r ≠ Reg.pc) :
    (writeBack ix rn (effectiveAddress ix base soff) soff x).retire.get r =
      if wbOf ix ∧ r = rn then base + soff else x.st.get r := by
  have hslot : phys x.st.mode r ≠ 15 := fun h => hr ((phys_eq_pc _ _).1 h)
  rw [State.get, InFlight.mode_retire, mode_writeBack, slot_writeBack _ _ _ _ _ hslot]
  simp only [phys_inj, writesBack_iff_wbOf, State.get]

/-- R15 when a transfer has completed: the written-back base, or what the access left. -/
theorem pc_writeBack_retire (ix : Indexing) (rn : Reg) (base soff : Word) (x : InFlight) :
    (writeBack ix rn (effectiveAddress ix base soff) soff x).retire.slot 15 =
      if wbOf ix ∧ rn = 15 then r15With (x.st.slot 15) (base + soff + 8#32)
      else splicePc (x.st.slot 15) (x.st.slot 15 + (if x.pcWritten then 8#32 else 4#32)) := by
  rw [pc_writeBack]
  simp only [writesBack_iff_wbOf, r15With_eq_splicePc]

/-- R15 after an advance by 4 without a write of it (R109). -/
theorem splicePc_advance_four (s : State) :
    splicePc (s.slot 15) (s.slot 15 + 4#32) = r15With (s.slot 15) (s.getAddress 15 + 4#32) := by
  have hpc : s.getAddress 15 = s.slot 15 &&& Config.addrMask := s.getAddress_pc
  rw [r15With_eq_splicePc, hpc, splicePc_advance _ _ (by decide)]

/-! ### A load completes (R132, R133) -/

/-- A transfer whose access writes `Rd` with a value read from the effective address completes as a load. -/
theorem loadCompletes_of_access {i : Instr} {ix : Indexing} {rn rd : Reg} {off : Word} {value : Word → Word} {s : State}
    {access : Word → InFlight → InFlight} (hexec : exec i s = .next (transfer ix rn off access (InFlight.start s)).retire)
    (haccess : ∀ ea, access ea (InFlight.start s) = (InFlight.start s).setAddress rd (value ea)) :
    LoadCompletes i ix rn rd off value s := by
  refine ⟨_, hexec, fun r hr => ?registers, ?pc, exec_hiddenSlotsKept hexec, ?memory⟩
  case registers =>
    rw [transfer_start, haccess, get_writeBack_retire ix rn _ _ _ hr, InFlight.setAddress_st, InFlight.start_st, get_setAddress]
    by_cases hrd : r = rd
    · have hpc : rd ≠ Reg.pc := hrd ▸ hr
      simp only [hrd, hpc, if_true, if_false]
      rfl
    · simp only [hrd, if_false]
      rfl
  case pc =>
    rw [transfer_start, haccess, pc_writeBack_retire, InFlight.setAddress_st, InFlight.setAddress_pcWritten, InFlight.start_st,
      InFlight.start_pcWritten, Bool.false_or, State.slot_pc_setAddress]
    by_cases hrd : rd = Reg.pc
    · subst hrd
      simp only [beq_self_eq_true, if_true, r15With_eq_splicePc, splicePc_splicePc,
        splicePc_then_advance _ _ 8#32 (by decide)]
      exact (apply_ite (splicePc (s.slot 15)) _ _ _).symm
    · simp only [beq_eq_false_iff_ne.2 hrd, hrd, if_false, Bool.false_eq_true, splicePc_advance_four]
      exact (apply_ite (r15With (s.slot 15)) _ _ _).symm
  case memory =>
    rw [transfer_start, haccess]
    exact sameMemory_of_fields (by simp) (by simp) (by simp)

/-- Settles O33: both forms are a transfer whose access writes `Rd` with the loaded word. -/
theorem loadWordCompletes : Obligations.LoadWordCompletes :=
  fun c ix rn rd s hp =>
    ⟨fun imm12 => loadCompletes_of_access (exec_executes (i := .ldrImm c ix rn rd imm12) nofun hp)
        fun ea => loadWordInto_start rd ea s,
      fun sh => loadCompletes_of_access (exec_executes (i := .ldrReg c ix rn rd sh) nofun hp)
        fun ea => loadWordInto_start rd ea s⟩

/-- Settles O34: both forms are a transfer whose access writes `Rd` with the zero-extended byte. -/
theorem loadByteCompletes : Obligations.LoadByteCompletes :=
  fun c ix rn rd s hp =>
    ⟨fun imm12 => loadCompletes_of_access (exec_executes (i := .ldrbImm c ix rn rd imm12) nofun hp)
        fun ea => loadByteInto_start rd ea s,
      fun sh => loadCompletes_of_access (exec_executes (i := .ldrbReg c ix rn rd sh) nofun hp)
        fun ea => loadByteInto_start rd ea s⟩

/-! ### A store completes (R134, R135) -/

/-- A load sees a completed transfer as it sees its access. -/
theorem loadWord_writeBack_retire (ix : Indexing) (rn : Reg) (ea soff : Word) (x : InFlight) (a : Word) :
    (writeBack ix rn ea soff x).retire.loadWord a = x.st.loadWord a := by
  rw [InFlight.loadWord_retire]
  exact State.loadWord_congr (by simp) (by simp) (by simp) a

/-- A transfer whose access stores a word at the effective address completes as a store. -/
theorem storeCompletes_of_access {i : Instr} {ix : Indexing} {rn : Reg} {off : Word} {stored : Word → Word} {s : State}
    {access : Word → InFlight → InFlight} (hexec : exec i s = .next (transfer ix rn off access (InFlight.start s)).retire)
    (haccess : ∀ ea, access ea (InFlight.start s) = (InFlight.start s).storeWord ea (stored ea)) :
    StoreCompletes i ix rn off stored s := by
  have hload : ∀ a : Word, (transfer ix rn off access (InFlight.start s)).retire.loadWord a =
      if SameRamWord s (eaOf ix (s.getAddress rn) (soffOf ix off)) a
      then stored (eaOf ix (s.getAddress rn) (soffOf ix off)) else s.loadWord a := fun a => by
    rw [transfer_start, haccess, loadWord_writeBack_retire]
    exact State.loadWord_storeWord s _ _ a
  refine ⟨_, hexec, fun r hr => ?registers, ?pc, exec_hiddenSlotsKept hexec, ?romLow, ?romImage, fun a ha => ?inside,
    fun a ha => ?outside⟩
  case registers =>
    rw [transfer_start, haccess, get_writeBack_retire ix rn _ _ _ hr, InFlight.storeWord_st, InFlight.start_st, get_storeWord]
    rfl
  case pc =>
    rw [transfer_start, haccess, pc_writeBack_retire, InFlight.storeWord_st, InFlight.storeWord_pcWritten, InFlight.start_st,
      InFlight.start_pcWritten, State.slot_storeWord, if_neg Bool.false_ne_true, splicePc_advance_four]
    exact (apply_ite (r15With (s.slot 15)) _ _ _).symm
  case romLow => rw [transfer_start, haccess]; simp
  case romImage => rw [transfer_start, haccess]; simp
  case inside => rw [hload, if_pos ha]
  case outside => rw [State.loadByte, hload, if_neg ha, State.loadByte]

/-- Settles O35: both forms are a transfer whose access stores `Rd`. -/
theorem storeWordCompletes : Obligations.StoreWordCompletes :=
  fun c ix rn rd s hp =>
    ⟨fun imm12 => storeCompletes_of_access (exec_executes (i := .strImm c ix rn rd imm12) nofun hp)
        fun ea => storeWordFrom_start rd ea s,
      fun sh => storeCompletes_of_access (exec_executes (i := .strReg c ix rn rd sh) nofun hp)
        fun ea => storeWordFrom_start rd ea s⟩

/-- Settles O36: both forms are a transfer whose access stores the word with the byte in its lane. -/
theorem storeByteCompletes : Obligations.StoreByteCompletes :=
  fun c ix rn rd s hp =>
    ⟨fun imm12 => storeCompletes_of_access (exec_executes (i := .strbImm c ix rn rd imm12) nofun hp)
        fun ea => storeByteFrom_start rd ea s,
      fun sh => storeCompletes_of_access (exec_executes (i := .strbReg c ix rn rd sh) nofun hp)
        fun ea => storeByteFrom_start rd ea s⟩

/-! ### R15 as the base or the destination of a transfer (R138) -/

/-- Settles O38: without write-back `Rd` holds the value loaded from R15 plus the offset. -/
theorem pcRelativeLoadReadsFetchPlusEight : Obligations.PcRelativeLoadReadsFetchPlusEight := by
  intro s c rd k hp hrd
  have hbase : s.getAddress 15 = (s.fetchAddr + 8#32) &&& 0x03FFFFFC#32 := s.getAddress_pc_fetchAddr
  obtain ⟨hload, -⟩ := loadWordCompletes c ⟨true, true, false⟩ 15 rd s hp
  obtain ⟨t, ht, hregs, -⟩ := hload k
  refine ⟨hbase, t, ht, ?_⟩
  rw [hregs rd hrd, if_neg (fun h => hrd h.2), if_pos rfl, hbase]
  rfl

/-- The fetch follows a value written to R15 and advanced by 8 (40_step_cycle.md R101, R109). -/
theorem fetchAddr_of_r15With {t : State} {packed v : Word} (h : t.slot 15 = r15With packed (v + 8#32)) :
    t.fetchAddr = v &&& 0x03FFFFFC#32 := by
  rw [State.fetchAddr_eq, h, r15With_eq_splicePc, ← addrMask_sub _ _ (by decide), splicePc_addr, addrMask_sub _ _ (by decide),
    BitVec.add_sub_cancel]
  rfl

/-- Where a completed load goes next. -/
theorem r15Decides_of_loads {i : Reg → Reg → Instr} {ix : Indexing} {off : Word} {value : Word → Word} {s : State}
    (h : ∀ rn rd, LoadCompletes (i rn rd) ix rn rd off value s) : R15DecidesTheNextFetch i ix off (some value) s := by
  refine ⟨fun rd hwb => ?base, fun rn hn => ?loaded⟩
  case base =>
    obtain ⟨t, ht, -, hpc, -⟩ := h 15 rd
    rw [if_pos ⟨hwb, rfl⟩] at hpc
    exact ⟨t, ht, fetchAddr_of_r15With hpc⟩
  case loaded =>
    obtain ⟨t, ht, -, hpc, -⟩ := h rn 15
    rw [if_neg hn, if_pos rfl] at hpc
    exact ⟨t, ht, fetchAddr_of_r15With hpc⟩

/-- Where a completed store goes next. -/
theorem r15Decides_of_stores {i : Reg → Reg → Instr} {ix : Indexing} {off : Word} {stored : Reg → Word → Word} {s : State}
    (h : ∀ rn rd, StoreCompletes (i rn rd) ix rn off (stored rd) s) : R15DecidesTheNextFetch i ix off none s := by
  refine ⟨fun rd hwb => ?_, trivial⟩
  obtain ⟨t, ht, -, hpc, -⟩ := h 15 rd
  rw [if_pos ⟨hwb, rfl⟩] at hpc
  exact ⟨t, ht, fetchAddr_of_r15With hpc⟩

/-- A loaded byte is zero-extended (R133, D17). -/
theorem zeroExtend_loadByte (s : State) :
    (fun ea => (s.loadByte ea).zeroExtend 32) = fun ea => BitVec.ofNat 32 (s.loadByte ea).toNat :=
  funext fun ea => (BitVec.ofNat_toNat 32 (s.loadByte ea)).symm

/-- Settles O39: the eight forms complete as loads or stores, and what these say of R15 decides the next fetch. -/
theorem valueWrittenToR15IsTheNextFetchAddress : Obligations.ValueWrittenToR15IsTheNextFetchAddress := by
  intro c ix s hp
  rw [zeroExtend_loadByte]
  refine ⟨fun n => ⟨?_, ?_, ?_, ?_⟩, fun sh => ⟨?_, ?_, ?_, ?_⟩⟩
  · exact r15Decides_of_loads fun rn rd => (loadWordCompletes c ix rn rd s hp).1 n
  · exact r15Decides_of_loads fun rn rd => (loadByteCompletes c ix rn rd s hp).1 n
  · exact r15Decides_of_stores fun rn rd => (storeWordCompletes c ix rn rd s hp).1 n
  · exact r15Decides_of_stores fun rn rd => (storeByteCompletes c ix rn rd s hp).1 n
  · exact r15Decides_of_loads fun rn rd => (loadWordCompletes c ix rn rd s hp).2 sh
  · exact r15Decides_of_loads fun rn rd => (loadByteCompletes c ix rn rd s hp).2 sh
  · exact r15Decides_of_stores fun rn rd => (storeWordCompletes c ix rn rd s hp).2 sh
  · exact r15Decides_of_stores fun rn rd => (storeByteCompletes c ix rn rd s hp).2 sh

/-! ### Stored code (20_memory.md R68) -/

/-- The fetch after a PC advance by 4 is the next word. -/
theorem fetchAddr_of_sequential {s t : State} (h : t.slot 15 = r15With (s.slot 15) (s.getAddress 15 + 4#32)) :
    t.fetchAddr = (s.fetchAddr + 4#32) &&& 0x03FFFFFC#32 := by
  have hpc : s.getAddress 15 = (s.fetchAddr + 8#32) &&& Config.addrMask := s.getAddress_pc_fetchAddr
  have hsum : s.getAddress 15 + 4#32 = (s.getAddress 15 - 4#32) + 8#32 := by bv_omega
  have hnext : s.fetchAddr + 8#32 - 4#32 = s.fetchAddr + 4#32 := by bv_omega
  rw [hsum] at h
  rw [fetchAddr_of_r15With h, hpc]
  exact (addrMask_sub _ _ (by decide)).trans (by rw [hnext]; rfl)

/-- Where a completed store goes next, a written-back R15 included. -/
theorem fetchAddr_eq_fetchAfterStore {s t : State} {ix : Indexing} {rn : Reg} {off : Word}
    (hpc : t.slot 15 = r15With (s.slot 15)
      (if wbOf ix ∧ rn = 15 then s.getAddress rn + soffOf ix off + 8#32 else s.getAddress 15 + 4#32)) :
    t.fetchAddr = fetchAfterStore ix rn off s := by
  rw [fetchAfterStore]
  split at hpc
  case isTrue hwb => rw [if_pos hwb, fetchAddr_of_r15With hpc]
  case isFalse hwb => rw [if_neg hwb, fetchAddr_of_sequential hpc]

/-- The step after a store into the word at the next fetch address decodes what was stored. -/
theorem storedWordIsRun_of_completes {i : Instr} {ix : Indexing} {rn : Reg} {off : Word} {stored : Word → Word} {s : State}
    (h : StoreCompletes i ix rn off stored s) : StoredWordIsRun i ix rn off stored s := by
  intro hword
  obtain ⟨t, ht, -, hpc, -, -, -, hstored, -⟩ := h
  have hfetch := fetchAddr_eq_fetchAfterStore hpc
  refine ⟨t, ht, hfetch, ?_⟩
  rw [step_eq, State.fetchWord, hfetch, hstored _ hword]

/-- Settles O40: the four forms complete as stores, and what these say of the next fetch and of the stored word is the next step. -/
theorem storedWordIsFetchedByTheNextStep : Obligations.StoredWordIsFetchedByTheNextStep := by
  intro c ix rn rd s hp
  obtain ⟨hwordImm, hwordReg⟩ := storeWordCompletes c ix rn rd s hp
  obtain ⟨hbyteImm, hbyteReg⟩ := storeByteCompletes c ix rn rd s hp
  exact ⟨fun imm12 => ⟨storedWordIsRun_of_completes (hwordImm imm12), storedWordIsRun_of_completes (hbyteImm imm12)⟩,
    fun sh => ⟨storedWordIsRun_of_completes (hwordReg sh), storedWordIsRun_of_completes (hbyteReg sh)⟩⟩

/-! ### Shifts (R130) -/

/-- The ones an arithmetic shift by `n` fills in are the top `n` bits. -/
theorem getLsbD_signFill {n i : Nat} (hi : i < 32) : (0xFFFFFFFF#32 <<< (32 - n)).getLsbD i = decide (32 - n ≤ i) := by
  have hones : 0xFFFFFFFF#32 = BitVec.allOnes 32 := rfl
  rw [hones, BitVec.getLsbD_shiftLeft, BitVec.getLsbD_allOnes, decide_eq_true hi,
    decide_eq_true (show i - (32 - n) < 32 by omega), Bool.true_and, Bool.and_true, ← decide_not]
  exact decide_eq_decide.2 Nat.not_lt

/-- Filling with the sign from the left is the arithmetic shift (R130). -/
theorem shiftValue_asr (v : Word) {n : Nat} (hn : n < 32) : shiftValue .asr v n = v.sshiftRight n := by
  apply BitVec.eq_of_getLsbD_eq
  intro i hi
  rw [BitVec.getLsbD_sshiftRight, BitVec.msb_eq_getLsbD_last, decide_eq_false (Nat.not_le.2 hi), Bool.not_false,
    Bool.true_and, shiftValue, BitVec.getLsbD_or, BitVec.getLsbD_ushiftRight, apply_ite (BitVec.getLsbD · i),
    getLsbD_signFill hi, BitVec.getLsbD_zero]
  by_cases hin : n + i < 32
  case pos =>
    have hbelow : ¬ 32 - n ≤ i := by omega
    rw [if_pos hin, decide_eq_false hbelow, ite_self, Bool.or_false]
  case neg =>
    have hfilled : 32 - n ≤ i := by omega
    have hpos : 0 < n := by omega
    rw [if_neg hin, BitVec.getLsbD_of_ge v (n + i) (by omega), Bool.false_or, decide_eq_true hfilled]
    cases hsign : v.getLsbD 31 <;> simp [hpos]

/-- A rotate moves bit `i + n` of the value, counted modulo 32, to bit `i` (R130). -/
theorem getLsbD_shiftValue_ror (v : Word) {n i : Nat} (hn : n < 32) (hi : i < 32) :
    (shiftValue .ror v n).getLsbD i = v.getLsbD ((i + n) % 32) := by
  rw [shiftValue]
  split
  case isTrue h0 => rw [h0, Nat.add_zero, Nat.mod_eq_of_lt hi]
  case isFalse h0 =>
    rw [BitVec.getLsbD_or, BitVec.getLsbD_ushiftRight, BitVec.getLsbD_shiftLeft]
    by_cases hin : i + n < 32
    · have hlow : i < 32 - n := by omega
      rw [Nat.mod_eq_of_lt hin, Nat.add_comm i n]
      simp [hlow]
    · have hout : v.getLsbD (n + i) = false := BitVec.getLsbD_of_ge _ _ (by omega)
      have hhigh : ¬ i < 32 - n := by omega
      have hmod : (i + n) % 32 = i - (32 - n) := by omega
      simp [hout, hhigh, hi, hmod]

/-- Settles O37: each shift type is a shift of the library, or is read bit by bit. -/
theorem shiftTypesComputeTheirOperation : Obligations.ShiftTypesComputeTheirOperation := by
  intro v n hn
  refine ⟨?lsl, ?lsr, ?asr, fun i hi => getLsbD_shiftValue_ror v hn hi⟩
  case lsl => rw [shiftValue, BitVec.toNat_shiftLeft, Nat.shiftLeft_eq]
  case lsr => rw [shiftValue, BitVec.toNat_ushiftRight, Nat.shiftRight_eq_div_pow]
  case asr => rw [shiftValue_asr v hn, BitVec.toInt_sshiftRight, Int.shiftRight_eq_div_pow]; norm_cast

end Sys2Proof.Proofs
end

section
/-! The host's execute (00_scope.md rules R7, R8) and what construction leaves (10_state.md rule R38, 70_reset_and_hazards.md rules
R180, R181). -/

namespace Sys2Proof.Proofs

open Sys2Proof.Machine Sys2Proof.Claims

/-! ### Which execute operations write R15 (40_step_cycle.md R108) -/

theorem pcWritten_writeBack (ix : Indexing) (rn : Reg) (ea soff : Word) (x : InFlight) :
    (writeBack ix rn ea soff x).pcWritten = true ↔ x.pcWritten = true ∨ (wbOf ix ∧ rn = 15) := by
  rw [← writesBack_iff_wbOf]
  rcases writeBack_cases ix rn ea soff x with ⟨h, e⟩ | ⟨h, e⟩
  · simp [e, h]
  · simp [e, h]

/-- A load into R15 and a write-back to R15 write it. -/
theorem pcWritten_transfer_load {ix : Indexing} {rn rd : Reg} {off : Word} {access : Word → InFlight → InFlight} {s : State}
    {value : Word → Word} (haccess : ∀ ea, access ea (InFlight.start s) = (InFlight.start s).setAddress rd (value ea)) :
    (transfer ix rn off access (InFlight.start s)).pcWritten = true ↔ rd = 15 ∨ (wbOf ix ∧ rn = 15) := by
  rw [transfer_start, haccess, pcWritten_writeBack]
  simp

/-- Of a store, only a write-back to R15 writes it. -/
theorem pcWritten_transfer_store {ix : Indexing} {rn : Reg} {off : Word} {access : Word → InFlight → InFlight} {s : State}
    {stored : Word → Word} (haccess : ∀ ea, access ea (InFlight.start s) = (InFlight.start s).storeWord ea (stored ea)) :
    (transfer ix rn off access (InFlight.start s)).pcWritten = true ↔ wbOf ix ∧ rn = 15 := by
  rw [transfer_start, haccess, pcWritten_writeBack]
  simp

/-- The execute operation of an instruction sets `pc_written` exactly when the instruction writes R15 (R108). -/
theorem pcWritten_executeOperation (i : Instr) (s : State) :
    (executeOperation i (InFlight.start s)).pcWritten = true ↔ WritesR15 i := by
  cases i
  case b | bl => exact iff_of_true rfl trivial
  case ldrImm | ldrReg => exact pcWritten_transfer_load fun ea => loadWordInto_start _ ea s
  case ldrbImm | ldrbReg => exact pcWritten_transfer_load fun ea => loadByteInto_start _ ea s
  case strImm | strReg => exact pcWritten_transfer_store fun ea => storeWordFrom_start _ ea s
  case strbImm | strbReg => exact pcWritten_transfer_store fun ea => storeByteFrom_start _ ea s
  case dp | und100 | und11x => exact iff_of_false Bool.false_ne_true id

/-! ### The execute operation does not see the condition field (R107) -/

/-- Words that agree below bit 28 agree in every bit there. -/
theorem getLsbD_eq_of_low_bits_eq {w w' : Word} (h : w &&& 0x0FFFFFFF#32 = w' &&& 0x0FFFFFFF#32) {j : Nat} (hj : j < 28) :
    w.getLsbD j = w'.getLsbD j := by
  have hmask : ∀ j < 28, (0x0FFFFFFF#32).getLsbD j = true := by decide
  have hbit := congrArg (BitVec.getLsbD · j) h
  simpa only [BitVec.getLsbD_and, hmask j hj, Bool.and_true] using hbit

/-- Words that agree below bit 28 agree in every field there. -/
theorem extractLsb'_eq_of_low_bits_eq {w w' : Word} (h : w &&& 0x0FFFFFFF#32 = w' &&& 0x0FFFFFFF#32) {i n : Nat}
    (hin : i + n ≤ 28) : w.extractLsb' i n = w'.extractLsb' i n := by
  apply BitVec.eq_of_getLsbD_eq
  intro j hj
  rw [BitVec.getLsbD_extractLsb', BitVec.getLsbD_extractLsb', getLsbD_eq_of_low_bits_eq h (by omega)]

theorem executeOperation_immTransfer_cond (byte load : Bool) (c c' : Cond) (ix : Indexing) (rn rd : Reg) (imm12 : Nat) :
    executeOperation (immTransfer byte load c ix rn rd imm12) = executeOperation (immTransfer byte load c' ix rn rd imm12) := by
  cases byte <;> cases load <;> rfl

theorem executeOperation_regTransfer_cond (byte load : Bool) (c c' : Cond) (ix : Indexing) (rn rd : Reg) (sh : ShiftedReg) :
    executeOperation (regTransfer byte load c ix rn rd sh) = executeOperation (regTransfer byte load c' ix rn rd sh) := by
  cases byte <;> cases load <;> rfl

section lowBits

variable {w w' : Word} (h : w &&& 0x0FFFFFFF#32 = w' &&& 0x0FFFFFFF#32)

include h

theorem executeOperation_decodeBranch_eq : executeOperation (decodeBranch w) = executeOperation (decodeBranch w') := by
  simp only [decodeBranch, getLsbD_eq_of_low_bits_eq h (j := 24) (by decide),
    extractLsb'_eq_of_low_bits_eq h (i := 0) (n := 24) (by decide)]
  split <;> rfl

theorem transferFields_eq : indexingField w = indexingField w' ∧ rnField w = rnField w' ∧ rdField w = rdField w' ∧
    imm12Field w = imm12Field w' ∧ shiftedRegField w = shiftedRegField w' := by
  simp (disch := decide) only [indexingField, rnField, rdField, imm12Field, shiftedRegField, getLsbD_eq_of_low_bits_eq h,
    extractLsb'_eq_of_low_bits_eq h, and_self]

theorem executeOperation_decodeLoadStore_eq :
    executeOperation (decodeLoadStore w) = executeOperation (decodeLoadStore w') := by
  obtain ⟨hix, hrn, hrd, himm12, hsh⟩ := transferFields_eq h
  have hbit : ∀ j < 28, w.getLsbD j = w'.getLsbD j := fun j hj => getLsbD_eq_of_low_bits_eq h hj
  rw [decodeLoadStore, decodeLoadStore, hbit 25 (by decide)]
  split
  · rw [decodeTransferReg_eq, decodeTransferReg_eq, hix, hrn, hrd, hsh, hbit 22 (by decide), hbit 20 (by decide)]
    exact executeOperation_regTransfer_cond _ _ _ _ _ _ _ _
  · rw [decodeTransferImm_eq, decodeTransferImm_eq, hix, hrn, hrd, himm12, hbit 22 (by decide), hbit 20 (by decide)]
    exact executeOperation_immTransfer_cond _ _ _ _ _ _ _ _

end lowBits

/-- The Undefined class has no execution unit (00_scope.md R3, log 18). -/
theorem executeOperation_undefined {i : Instr} (h : i.class = .undefined) (x : InFlight) : executeOperation i x = x := by
  cases i with
  | und100 c ignored => rfl
  | und11x c ignored => rfl
  | _ => simp only [Instr.class, reduceCtorEq] at h

/-- Words that differ in the condition field alone have one execute operation. -/
theorem executeOperation_decodeWord_eq {w w' : Word} (h : w &&& 0x0FFFFFFF#32 = w' &&& 0x0FFFFFFF#32) :
    executeOperation (decodeWord w) = executeOperation (decodeWord w') := by
  have hclass := classify_eq_of_low_bits_eq h
  cases hc : classify w' with
  | branch =>
    rw [decodeWord_of_branch (hclass.trans hc), decodeWord_of_branch hc, executeOperation_decodeBranch_eq h]
  | dataProcessing =>
    rw [decodeWord, decodeWord, hclass, hc]
    rfl
  | loadStore =>
    rw [decodeWord_of_loadStore (hclass.trans hc), decodeWord_of_loadStore hc, executeOperation_decodeLoadStore_eq h]
  | undefined =>
    funext x
    rw [executeOperation_undefined ((class_decodeWord w).trans (hclass.trans hc)),
      executeOperation_undefined ((class_decodeWord w').trans hc)]

/-- Settles O53: a step whose condition passes is the same execute operation with the PC advance after it. -/
theorem hostExecutesWithoutTestOrAdvance : Obligations.HostExecutesWithoutTestOrAdvance := by
  intro s w
  refine ⟨fun hclass => ?undefined, fun hclass hp => ?step, fun w' hw => ?condition⟩
  case undefined => rw [State.hostAction, State.executeWord, executeOperation_undefined hclass, InFlight.start_st]
  case step =>
    have hwritten := pcWritten_executeOperation (decodeWord w) s
    exact ⟨if (executeOperation (decodeWord w) (InFlight.start s)).pcWritten then 8#32 else 4#32,
      fun h => if_pos (hwritten.2 h), fun h => if_neg (fun hw => h (hwritten.1 hw)), exec_executes hclass hp⟩
  case condition => rw [State.hostAction, State.hostAction, State.executeWord, State.executeWord, executeOperation_decodeWord_eq hw]

/-! ### Construction -/

/-- The slots construction leaves (R38, D8, D9). -/
theorem slot_construct (image : List Byte) (k : Fin 27) : (State.construct image).slot k = if k = 15 then 8#32 else 0#32 := by
  have hslots : ∀ k : Fin 27, (State.construct []).slot k = if k = 15 then 8#32 else 0#32 := by decide
  exact hslots k

/-- The flags are clear after construction, so the conditions that pass are those a clear flag satisfies (R105). -/
theorem passes_construct_iff (image : List Byte) (c : Cond) :
    (State.construct image).passes c = true ↔ c ∈ [Cond.ne, .cc, .pl, .vc, .ls, .ge, .gt, .al] := by
  rw [State.passes, State.get_pc, slot_construct, if_pos rfl]
  cases c <;> decide

/-- Settles O50: slot 15 holds 8 and every other slot 0, and the rest is read from slot 15. -/
theorem constructionState : Obligations.ConstructionState := by
  intro image
  have hpc : (State.construct image).slot 15 = 8#32 := slot_construct image 15
  refine ⟨_, rfl, hpc, ?mode, ?address, ?fetch, fun k hk => ?slots, fun o => rfl, rfl, rfl, passes_construct_iff image⟩
  case mode => rw [State.mode, hpc]; decide
  case address =>
    have haddr : (State.construct image).getAddress 15 = (State.construct image).slot 15 &&& Config.addrMask :=
      State.getAddress_pc _
    rw [haddr, hpc]; decide
  case fetch => rw [State.fetchAddr_eq, hpc]; decide
  case slots => rw [slot_construct, if_neg hk]

/-- Settles O51: the fetch address is 0, where the low-mapped ROM shows the image's first word. -/
theorem firstStepRunsTheStartOfTheImage : Obligations.FirstStepRunsTheStartOfTheImage := by
  intro image w hw
  obtain ⟨_, rfl, -, -, -, hfetch, -⟩ := constructionState image
  have hback : (State.construct image).backing 0#32 = .lowMappedRom 0 :=
    (backing_eq_lowMappedRom_iff _ _ _).2 ⟨by decide, rfl, by decide⟩
  have hword : (State.construct image).fetchWord = w := by
    apply BitVec.eq_of_toNat_eq
    rw [State.fetchWord, hfetch, loadWord_of_rom (.inl hback), toNat_romWord, hw]
    rfl
  rw [step_eq, hword]

end Sys2Proof.Proofs
end
